-- ==== Sys2Proof/Word.lean ====
section
/-! DEFINITION. The machine's words: 32-bit words and the 8-bit bytes of the I/O ports. -/

namespace Sys2Proof

/-- "An unsigned 32-bit integer, the machine's universal datum" (00_scope.md R4, 10_state.md R20). -/
abbrev Word := BitVec 32

/-- The datum of the byte ports (10_state.md R20, R42, R43). -/
abbrev Byte := BitVec 8

end Sys2Proof
end

