-- ==== Sys2Proof/Syntax.lean ====
section
/-! DEFINITION. The instruction set: the eight registers and the fourteen instructions, one constructor for each row of
spec/opcode_table.json, each with exactly the fields its handler names (30_encoding.md R86, 40_decode_and_step.md R101). -/

namespace Sys2Proof

/-- The eight registers (10_state.md R21). -/
inductive Reg where
  | x0 | x1 | x2 | x3 | x4 | x5 | x6 | x7
deriving DecidableEq, Repr

/-- The fourteen instructions (30_encoding.md R88), operands in the order A, B, C of R90. -/
inductive Instr where
  /-- Opcode 0, R140. -/
  | conditionalMove (a b c : Reg)
  /-- Opcode 1, R160. -/
  | arrayIndex (a b c : Reg)
  /-- Opcode 2, R161. -/
  | arrayAmendment (a b c : Reg)
  /-- Opcode 3, R141. -/
  | addition (a b c : Reg)
  /-- Opcode 4, R142. -/
  | multiplication (a b c : Reg)
  /-- Opcode 5, R143. -/
  | division (a b c : Reg)
  /-- Opcode 6, R144. -/
  | notAnd (a b c : Reg)
  /-- Opcode 7, R180. -/
  | halt
  /-- Opcode 8, R162. -/
  | allocation (b c : Reg)
  /-- Opcode 9, R163. -/
  | abandonment (c : Reg)
  /-- Opcode 10, R190. -/
  | output (c : Reg)
  /-- Opcode 11, R191. -/
  | input (c : Reg)
  /-- Opcode 12, R181. -/
  | loadProgram (b c : Reg)
  /-- Opcode 13, R145. The immediate is written as the number of R90, `imm` in 0..0x1FFFFFF; `Instr.wellFormed`
  checks that range. -/
  | orthography (sa : Reg) (imm : Word)
deriving DecidableEq, Repr

end Sys2Proof
end

