-- ==== Sys2Proof/WellFormed.lean ====
section
/-! DEFINITION. Which instruction terms the encoding can hold (30_encoding.md R83, R90, R93). -/

namespace Sys2Proof

/-- Every register operand is in range by its type. The one operand with a range to check is orthography's immediate:
"`imm` in 0..0x1FFFFFF" (R90; `IMM` in 0..2^25-1 in R93). -/
def Instr.wellFormed : Instr → Bool
  | .conditionalMove _ _ _ => true
  | .arrayIndex _ _ _ => true
  | .arrayAmendment _ _ _ => true
  | .addition _ _ _ => true
  | .multiplication _ _ _ => true
  | .division _ _ _ => true
  | .notAnd _ _ _ => true
  | .halt => true
  | .allocation _ _ => true
  | .abandonment _ => true
  | .output _ => true
  | .input _ => true
  | .loadProgram _ _ => true
  | .orthography _ imm => decide (imm.toNat ≤ 0x1FFFFFF)

end Sys2Proof
end

