-- ==== Sys2Proof/Decode.lean ====
section
/-! DEFINITION. The bit decoder (40_decode_and_step.md R100, R101), total on all words, and after it the encoder
(30_encoding.md R93). -/

namespace Sys2Proof

/-! ### The six field functions of R100 -/

/-- `OP(w) = w[31:28]`. -/
def opField (w : Word) : BitVec 4 := w.extractLsb' 28 4

/-- `A(w) = w[8:6]`. -/
def aField (w : Word) : BitVec 3 := w.extractLsb' 6 3

/-- `B(w) = w[5:3]`. -/
def bField (w : Word) : BitVec 3 := w.extractLsb' 3 3

/-- `C(w) = w[2:0]`. -/
def cField (w : Word) : BitVec 3 := w.extractLsb' 0 3

/-- `SA(w) = w[27:25]`. -/
def saField (w : Word) : BitVec 3 := w.extractLsb' 25 3

/-- `IMM(w) = w[24:0]`. -/
def immField (w : Word) : BitVec 25 := w.extractLsb' 0 25

/-- The register a 3-bit index names (R82: "each a register index 0..7"). -/
def Reg.ofIndex (k : BitVec 3) : Reg :=
  match k.toNat with
  | 0 => .x0
  | 1 => .x1
  | 2 => .x2
  | 3 => .x3
  | 4 => .x4
  | 5 => .x5
  | 6 => .x6
  | _ => .x7

/-- The 3-bit index of a register. -/
def Reg.index : Reg → BitVec 3
  | .x0 => 0#3
  | .x1 => 1#3
  | .x2 => 2#3
  | .x3 => 3#3
  | .x4 => 4#3
  | .x5 => 5#3
  | .x6 => 6#3
  | .x7 => 7#3

/-- Why a word is no instruction: the only illegal encodings are opcodes 14 and 15 (30_encoding.md R87). The step raises
UndefinedOpcode for it (60_exceptions.md R207). -/
inductive DecodeError where
  | undefinedOpcode (op : BitVec 4)
deriving DecidableEq, Repr

/-- The instruction of opcode `op` with the operand fields of `w`: bits 27..9 of the standard format and every field the
handler does not name are not looked at (R85, R86). -/
def decodeOp (op : Nat) (w : Word) : Except DecodeError Instr :=
  let a := Reg.ofIndex (aField w)
  let b := Reg.ofIndex (bField w)
  let c := Reg.ofIndex (cField w)
  match op with
  | 0 => .ok (.conditionalMove a b c)
  | 1 => .ok (.arrayIndex a b c)
  | 2 => .ok (.arrayAmendment a b c)
  | 3 => .ok (.addition a b c)
  | 4 => .ok (.multiplication a b c)
  | 5 => .ok (.division a b c)
  | 6 => .ok (.notAnd a b c)
  | 7 => .ok .halt
  | 8 => .ok (.allocation b c)
  | 9 => .ok (.abandonment c)
  | 10 => .ok (.output c)
  | 11 => .ok (.input c)
  | 12 => .ok (.loadProgram b c)
  | 13 => .ok (.orthography (Reg.ofIndex (saField w)) ((immField w).setWidth 32))
  | _ => .error (.undefinedOpcode (opField w))

/-- Decoding (R101, R102 stage 3): the opcode alone selects the operation and the format (R81). -/
def decode (w : Word) : Except DecodeError Instr := decodeOp (opField w).toNat w

/-! ### The encoder -/

/-- The opcode of an instruction (30_encoding.md R88). -/
def Instr.opcode : Instr → BitVec 4
  | .conditionalMove _ _ _ => 0#4
  | .arrayIndex _ _ _ => 1#4
  | .arrayAmendment _ _ _ => 2#4
  | .addition _ _ _ => 3#4
  | .multiplication _ _ _ => 4#4
  | .division _ _ _ => 5#4
  | .notAnd _ _ _ => 6#4
  | .halt => 7#4
  | .allocation _ _ => 8#4
  | .abandonment _ => 9#4
  | .output _ => 10#4
  | .input _ => 11#4
  | .loadProgram _ _ => 12#4
  | .orthography _ _ => 13#4

/-- Standard format (R82), the ignored bits written as zeros (R92). -/
def encodeStandard (op : BitVec 4) (a b c : BitVec 3) : Word :=
  op ++ 0#19 ++ a ++ b ++ c

/-- Special format (R83). -/
def encodeSpecial (sa : BitVec 3) (imm : BitVec 25) : Word :=
  13#4 ++ sa ++ imm

/-- The word of a well-formed instruction (R93); fields the instruction does not use are zeros (R92). -/
def encode (i : Instr) : Word :=
  match i with
  | .conditionalMove a b c => encodeStandard i.opcode a.index b.index c.index
  | .arrayIndex a b c => encodeStandard i.opcode a.index b.index c.index
  | .arrayAmendment a b c => encodeStandard i.opcode a.index b.index c.index
  | .addition a b c => encodeStandard i.opcode a.index b.index c.index
  | .multiplication a b c => encodeStandard i.opcode a.index b.index c.index
  | .division a b c => encodeStandard i.opcode a.index b.index c.index
  | .notAnd a b c => encodeStandard i.opcode a.index b.index c.index
  | .halt => encodeStandard i.opcode 0#3 0#3 0#3
  | .allocation b c => encodeStandard i.opcode 0#3 b.index c.index
  | .abandonment c => encodeStandard i.opcode 0#3 0#3 c.index
  | .output c => encodeStandard i.opcode 0#3 0#3 c.index
  | .input c => encodeStandard i.opcode 0#3 0#3 c.index
  | .loadProgram b c => encodeStandard i.opcode 0#3 b.index c.index
  | .orthography sa imm => encodeSpecial sa.index (imm.setWidth 25)

/-! ### The table's numbering -/

/-- The one instruction word of an opcode-table row: its low `nbits` bits from `w`, every bit above them 0. -/
def tableWord (nbits w : Nat) : Word := BitVec.ofNat 32 (w % 2 ^ nbits)

/-- What the decoder reads from a word whose bits are numbered as spec/opcode_table.json numbers them. Memory holds whole
words and has no byte order (20_memory.md R52), so the word goes to the decoder as it is. -/
def decodeTableWord (nbits w : Nat) : Option Instr :=
  match decode (tableWord nbits w) with
  | .ok i => some i
  | .error _ => none

end Sys2Proof
end

