-- ==== Sys2Proof/Machine/Flags.lean ====
section
/-! DEFINITION. The machine has no flags, condition codes or predicate registers (10_state.md R28): no instruction computes
or reads one. The one condition of the instruction set is conditional_move's test of a whole register. -/

namespace Sys2Proof.Machine

/-- conditional_move's condition: "any non-zero value of x[C], including 0x80000000, moves" (42_alu.md R140). -/
def moveTaken (c : Word) : Bool := c != 0#32

end Sys2Proof.Machine
end

