-- ==== Sys2Proof/Machine/Heap.lean ====
section
/-! DEFINITION. The heap as plain data (10_state.md R30 to R34): segments of words, slots, the free list, their canonical
form and the heap invariants. The unit of memory is the 32-bit word (20_memory.md R51), so a cell is (offset, word). -/

namespace Sys2Proof.Machine

/-- What an unlisted offset of a live segment reads as: a new segment is "zero-filled" (10_state.md R31, 41_heap_ops.md
R120). -/
def blankWord : Word := 0#32

/-- A segment: "an ordered sequence of words of fixed length" (10_state.md R31). `cells` lists, by rising offset, the words
that are not `blankWord` (log 1). The length is a word, so R8's bound 2^32-1 holds by type (log 14). -/
structure Segment where
  length : Word
  cells  : List (Nat × Word)
deriving DecidableEq, Repr

/-- One entry of the segment table (10_state.md R30): a dead slot "holds nothing". -/
inductive Slot where
  | live (seg : Segment)
  | dead
deriving DecidableEq, Repr

/-- The segment table and the free list (10_state.md R30, R33). K is `slots.length`; the head of `free` is the top of the
LIFO stack. -/
structure Heap where
  slots : List Slot
  free  : List Word
deriving DecidableEq, Repr

/-! ### One segment -/

/-- The word at an offset of a cell list. -/
def cellAt (i : Nat) : List (Nat × Word) → Word
  | [] => blankWord
  | (j, v) :: rest => if i = j then v else cellAt i rest

/-- Writing one word into a cell list; writing `blankWord` removes the entry, so the canonical form is kept. -/
def putCell (i : Nat) (v : Word) : List (Nat × Word) → List (Nat × Word)
  | [] => if v = blankWord then [] else [(i, v)]
  | (j, u) :: rest =>
    if i < j then (if v = blankWord then (j, u) :: rest else (i, v) :: (j, u) :: rest)
    else if i = j then (if v = blankWord then rest else (i, v) :: rest)
    else (j, u) :: putCell i v rest

/-- The cells of a sequence of words that starts at offset `base`. -/
def cellsFrom (base : Nat) : List Word → List (Nat × Word)
  | [] => []
  | w :: ws => if w = blankWord then cellsFrom (base + 1) ws else (base, w) :: cellsFrom (base + 1) ws

/-- The word at offset `i` of a segment. -/
def Segment.read (g : Segment) (i : Nat) : Word := cellAt i g.cells

/-- The segment with the word at offset `i` replaced. -/
def Segment.write (g : Segment) (i : Nat) (v : Word) : Segment :=
  { g with cells := putCell i v g.cells }

/-- `zeros(n)` (00_scope.md R14). -/
def Segment.zeros (n : Word) : Segment := { length := n, cells := [] }

/-- The segment that holds a sequence of words, used for the program image (10_state.md R30). -/
def Segment.ofWords (ws : List Word) : Segment :=
  { length := BitVec.ofNat 32 ws.length, cells := cellsFrom 0 ws }

/-! ### The segment an identifier names -/

/-- The segment of a live identifier; none for a dead or a non-existent one (10_state.md R32). -/
def Heap.segment? (h : Heap) (id : Word) : Option Segment :=
  match h.slots[id.toNat]? with
  | some (.live g) => some g
  | some .dead => none
  | none => none

/-- "Live: id < K and S[id] is live" (10_state.md R32). -/
def Heap.isLive (h : Heap) (id : Word) : Bool := (h.segment? id).isSome

/-! ### The canonical form and the invariants -/

/-- Cells by strictly rising offset from `lo` on, all below `hi`, none equal to what an unlisted offset reads as. -/
def cellsCanonical (lo hi : Nat) : List (Nat × Word) → Bool
  | [] => true
  | (j, v) :: rest =>
    decide (lo ≤ j) && decide (j < hi) && decide (v ≠ blankWord) && cellsCanonical (j + 1) hi rest

def Segment.canonical (g : Segment) : Bool := cellsCanonical 0 g.length.toNat g.cells

def Slot.canonical : Slot → Bool
  | .live g => g.canonical
  | .dead => true

/-- The canonical form of memory: every live segment lists its words by rising offset, below its length, none of them
`blankWord`; so equal memories are equal data (log 1). -/
def Memory.wf (h : Heap) : Bool := h.slots.all Slot.canonical

/-- The heap invariants of 10_state.md R34 (a), (b), (c), with the bound K ≤ 2^32 of R30: segment 0 is live; the free list
holds exactly the identifiers of the dead slots, each once, and never 0. That a dead slot holds no words (c) is so by
type. -/
abbrev Heap.Inv (h : Heap) : Prop :=
  h.slots.length ≤ 2 ^ 32 ∧
  h.isLive 0#32 = true ∧
  h.free.Nodup ∧
  (∀ id ∈ h.free, id ≠ 0#32 ∧ h.slots[id.toNat]? = some .dead) ∧
  (∀ k < h.slots.length, h.slots[k]? = some .dead → BitVec.ofNat 32 k ∈ h.free)

end Sys2Proof.Machine
end

