-- ==== Sys2Proof/Config.lean ====
section
/-! DEFINITION. What is fixed for the machine and what stays open: the bounds the spec fixes, the host's possible answers,
and the free values, which have no body. -/

namespace Sys2Proof.Config

/-- The longest segment, in words (00_scope.md R8). -/
def maxSegmentLength : Nat := 2 ^ 32 - 1

/-- The most identifiers that can exist (41_heap_ops.md R128). -/
def maxSlots : Nat := 2 ^ 32

/-- The end-of-input sentinel, "the all-ones word" (45_io.md R191). -/
def endOfInputWord : Word := 0xFFFFFFFF

/-- What the host may answer to an `input` request (00_scope.md R11, 10_state.md R43). -/
inductive InputAnswer where
  | byte (b : Byte)
  | endOfInput
  | ioError
deriving DecidableEq, Repr

/-- What the host may answer to an `output` request (00_scope.md R11, 10_state.md R42). -/
inductive OutputAnswer where
  | ok
  | ioError
deriving DecidableEq, Repr, Inhabited

/-- What a run assumes of `heap_admits` (41_heap_ops.md R129): nothing (`unknown`), or by name that it is constantly true
or constantly false. -/
inductive StoragePremise where
  | unlimited
  | exhausted
  | unknown
deriving DecidableEq, Repr

/-- What a run assumes of the output port's answers (00_scope.md R11): nothing (`unknown`), or by name that the host always
or never accepts a byte. -/
inductive SinkPremise where
  | accepting
  | refusing
  | unknown
deriving DecidableEq, Repr

/-- FREE VALUE: the OPEN parameter `heap_admits(H, n)` of 00_scope.md R10, "a total Boolean function of the heap state H and
a requested word count n" (log 3). -/
opaque heapAdmits : Machine.Heap → Word → Bool

/-- FREE VALUE: the host's answer to the output request that comes after `k` bytes have been emitted, for byte `b` (00_scope.md
R11; log 5). -/
opaque outputAnswer : Nat → Byte → OutputAnswer

end Sys2Proof.Config
end

