-- ==== Sys2Proof/Machine/State.lean ====
section
/-! DEFINITION. The machine's state as plain data (10_state.md R38), its reset (R39, 70_reset_and_hazards.md R240), and the
reasons a step can answer no next state. -/

namespace Sys2Proof.Machine

/-- The register file: "exactly eight words, indexed 0..7", none hard-wired (10_state.md R21). -/
structure Regs where
  x0 : Word
  x1 : Word
  x2 : Word
  x3 : Word
  x4 : Word
  x5 : Word
  x6 : Word
  x7 : Word
deriving DecidableEq, Repr

/-- The nine fault kinds (60_exceptions.md R201). -/
inductive FaultKind where
  | divisionByZero
  | segmentIndexOutOfBounds
  | deadSegment
  | abandonSegmentZero
  | outputOutOfRange
  | undefinedOpcode
  | fetchOutOfBounds
  | allocationFailure
  | ioError
deriving DecidableEq, Repr

/-- The engine's state machine (10_state.md R26), the fault record inside FAULTED, so that it has a value exactly there
(R27). -/
inductive Status where
  | running
  | halted
  | faulted (kind : FaultKind) (offset : Word)
deriving DecidableEq, Repr

/-- The model's own fields, not the spec's state: what the run assumes of the host's side. `inputs` are the answers the host
has ready for coming `input` requests, oldest first (log 3, 4, 5). -/
structure HostSide where
  storage  : Config.StoragePremise
  byteSink : Config.SinkPremise
  inputs   : List Config.InputAnswer
deriving DecidableEq, Repr

/-- Nothing is assumed of the host and it has no input answer ready (DESIGN CHOICE; log 3, 4, 5). -/
def HostSide.unknown : HostSide := { storage := .unknown, byteSink := .unknown, inputs := [] }

/-- The state of the machine (10_state.md R38), and the host's side. `out` is the output stream, oldest byte first (R35). -/
structure State where
  regs   : Regs
  pc     : Word
  status : Status
  heap   : Heap
  out    : List Byte
  host   : HostSide
deriving DecidableEq, Repr

/-- Why there is no step: the machine is in a terminal state (40_decode_and_step.md R105). A machine fault of
60_exceptions.md is none of these: it is a next state, with status `faulted`. -/
inductive Fault where
  /-- `step` in HALTED: "HALTED is terminal". Safe: the hardware has no step there either. -/
  | halted
  /-- `step` in FAULTED, with the fault record: "FAULTED is terminal" (60_exceptions.md R213). Safe: the hardware has no
  step there either. -/
  | faulted (kind : FaultKind) (offset : Word)
deriving DecidableEq, Repr

/-- Why an instruction has no meaning. -/
inductive Refusal where
  /-- Raised by an arm of `exec` for an instruction that is not modelled. No arm of this model raises it. Safe. -/
  | notModelled (mnemonic : String)
deriving DecidableEq, Repr

/-- All registers zero (10_state.md R21). -/
def Regs.zero : Regs := ⟨0#32, 0#32, 0#32, 0#32, 0#32, 0#32, 0#32, 0#32⟩

/-- Reset with the image that the host presents at the load port (70_reset_and_hazards.md R240). -/
def State.resetWith (image : List Word) (host : HostSide) : State :=
  { regs := .zero
    pc := 0#32
    status := .running
    heap := { slots := [.live (Segment.ofWords image)], free := [] }
    out := []
    host := host }

/-- Right after reset with the empty image, which is legal (00_scope.md R9: "N = 0 is legal"); a program is an image
loaded from outside (log 8). -/
def State.reset : State := State.resetWith [] .unknown

end Sys2Proof.Machine
end

