-- ==== Sys2Proof/Machine/Ops.lean ====
section
/-! DEFINITION. The named operations over registers, memory and the finger, taking a fault, and the answers of the host's
side. -/

namespace Sys2Proof.Machine

/-! ### Registers and finger -/

def Regs.get (x : Regs) : Reg → Word
  | .x0 => x.x0
  | .x1 => x.x1
  | .x2 => x.x2
  | .x3 => x.x3
  | .x4 => x.x4
  | .x5 => x.x5
  | .x6 => x.x6
  | .x7 => x.x7

def Regs.set (x : Regs) (r : Reg) (v : Word) : Regs :=
  match r with
  | .x0 => { x with x0 := v }
  | .x1 => { x with x1 := v }
  | .x2 => { x with x2 := v }
  | .x3 => { x with x3 := v }
  | .x4 => { x with x4 := v }
  | .x5 => { x with x5 := v }
  | .x6 => { x with x6 := v }
  | .x7 => { x with x7 := v }

/-- Read of register `r` (00_scope.md R14, `x[i]`). -/
def State.reg (s : State) (r : Reg) : Word := s.regs.get r

/-- Write of register `r` (00_scope.md R14, `x[i] <- v`); every register is ordinary (10_state.md R21). -/
def State.setReg (s : State) (r : Reg) (v : Word) : State := { s with regs := s.regs.set r v }

/-- Write of the finger. -/
def State.setPc (s : State) (t : Word) : State := { s with pc := t }

/-- Stage 2 of the step: the finger moves past the fetched word (40_decode_and_step.md R102). `exec` takes the state with
the finger still AT the instruction, and each meaning advances it first (log 2). -/
def State.advance (s : State) : State := s.setPc (s.pc + 1#32)

def State.setHeap (s : State) (h : Heap) : State := { s with heap := h }

def State.setStatus (s : State) (st : Status) : State := { s with status := st }

/-- `out <- out ++ [b]` (45_io.md R190). -/
def State.emit (s : State) (b : Byte) : State := { s with out := s.out ++ [b] }

/-- The host's answers that are still to come. -/
def State.setInputs (s : State) (as : List Config.InputAnswer) : State :=
  { s with host := { s.host with inputs := as } }

/-! ### Taking a fault -/

/-- `raise Fault(K)` in a step whose instruction offset is `o`: status, kind and offset are written "and nothing else"
(60_exceptions.md R212). There is no return from it (R213): no instruction leaves FAULTED, only `hostReset` does. -/
def raiseFault (k : FaultKind) (o : Word) (s : State) : State := s.setStatus (.faulted k o)

/-- A fault of stage 3 or 4, where the finger has already moved on (40_decode_and_step.md R102, R106); `s` is the state
at the start of the step, so `s.pc` is the instruction offset. -/
def takeFault (k : FaultKind) (s : State) : State := raiseFault k s.pc s.advance

/-- The end of a handler: the state it computed, or the fault that one of its tests raised before it wrote anything
(40_decode_and_step.md R107). -/
def conclude (s : State) : Except FaultKind State → State
  | .ok t => t
  | .error k => takeFault k s

/-! ### Word access -/

/-- `MemRead((id, i), 32)` (20_memory.md R55). -/
def memRead (h : Heap) (id i : Word) : Except FaultKind Word :=
  match h.segment? id with
  | none => .error .deadSegment
  | some g =>
    if i.toNat < g.length.toNat then .ok (g.read i.toNat) else .error .segmentIndexOutOfBounds

/-- The heap with the segment of `id` replaced. -/
def Heap.setSlot (h : Heap) (id : Word) (sl : Slot) : Heap :=
  { h with slots := h.slots.set id.toNat sl }

/-- `MemWrite((id, i), 32, v)` (20_memory.md R56). -/
def memWrite (h : Heap) (id i v : Word) : Except FaultKind Heap :=
  match h.segment? id with
  | none => .error .deadSegment
  | some g =>
    if i.toNat < g.length.toNat then .ok (h.setSlot id (.live (g.write i.toNat v)))
    else .error .segmentIndexOutOfBounds

/-- `CodeFetch(i)` (20_memory.md R57). S[0] is always live (10_state.md R34); where it were not, there is no word to fetch
(log 10). -/
def codeFetch (h : Heap) (i : Word) : Except FaultKind Word :=
  match h.segment? 0#32 with
  | none => .error .fetchOutOfBounds
  | some g => if i.toNat < g.length.toNat then .ok (g.read i.toNat) else .error .fetchOutOfBounds

/-! ### Segments as wholes; `admits` is what the storage answers -/

/-- `Allocate(n)` (41_heap_ops.md R120). -/
def allocate (admits : Bool) (n : Word) (h : Heap) : Except FaultKind (Word × Heap) :=
  if admits then
    match h.free with
    | id :: rest => .ok (id, { slots := h.slots.set id.toNat (.live (.zeros n)), free := rest })
    | [] =>
      if h.slots.length < Config.maxSlots then
        .ok (BitVec.ofNat 32 h.slots.length, { h with slots := h.slots ++ [.live (.zeros n)] })
      else .error .allocationFailure
  else .error .allocationFailure

/-- `Abandon(id)` (41_heap_ops.md R121). -/
def abandon (id : Word) (h : Heap) : Except FaultKind Heap :=
  if id = 0#32 then .error .abandonSegmentZero
  else if h.isLive id then .ok { slots := h.slots.set id.toNat .dead, free := id :: h.free }
  else .error .deadSegment

/-- `CloneIntoZero(id)` (41_heap_ops.md R122): a copy by value, with storage of its own (R130). -/
def cloneIntoZero (admits : Word → Bool) (id : Word) (h : Heap) : Except FaultKind Heap :=
  match h.segment? id with
  | none => .error .deadSegment
  | some g => if admits g.length then .ok (h.setSlot 0#32 (.live g)) else .error .allocationFailure

/-! ### The answers of the host's side -/

/-- `heap_admits(H, n)` in this run (00_scope.md R10): what the run assumes by name, else the free value (log 3). -/
def State.heapAdmits (s : State) (n : Word) : Bool :=
  match s.host.storage with
  | .unlimited => true
  | .exhausted => false
  | .unknown => Config.heapAdmits s.heap n

/-- The host's answer to a byte on the output port (10_state.md R42): what the run assumes by name, else the free value
(log 5). -/
def State.outputAnswer (s : State) (b : Byte) : Config.OutputAnswer :=
  match s.host.byteSink with
  | .accepting => .ok
  | .refusing => .ioError
  | .unknown => Config.outputAnswer s.out.length b

end Sys2Proof.Machine
end

