-- ==== Sys2Proof/Machine/Operands.lean ====
section
/-! DEFINITION. The operand forms: a register, the (identifier, offset) pair of two registers, the 25-bit immediate, the
byte of the ports; and the ALU's results. -/

namespace Sys2Proof.Machine

/-- The machine's one addressing mode, "segment identifier in one register, word offset in another" (43_array.md, before
R160): nothing is added, scaled or updated. -/
def State.address (s : State) (idReg offsetReg : Reg) : Word × Word := (s.reg idReg, s.reg offsetReg)

/-- `zext_32(IMM)` of the 25-bit immediate (30_encoding.md R84, 42_alu.md R145). -/
def immediate (imm : Word) : Word := (imm.setWidth 25).setWidth 32

/-- `v[7:0]`, the byte on the output port (45_io.md R190). -/
def lowByte (v : Word) : Byte := v.extractLsb' 0 8

/-- `zext_32(b)` of a byte from the input port (45_io.md R191). -/
def zextByte (b : Byte) : Word := b.setWidth 32

/-! ### The ALU (42_alu.md R146): unsigned, modulo 2^32 -/

def aluAdd (x y : Word) : Word := x + y

def aluMul (x y : Word) : Word := x * y

/-- The unsigned quotient; a zero divisor is the ALU's divide-by-zero flag (42_alu.md R143). -/
def aluDiv (x y : Word) : Except FaultKind Word :=
  if y = 0#32 then .error .divisionByZero else .ok (x / y)

def aluNand (x y : Word) : Word := ~~~(x &&& y)

end Sys2Proof.Machine
end

