-- ==== Sys2Proof/Machine/Alu.lean ====
section
/-! DEFINITION. The six register and ALU instructions (42_alu.md). Each meaning takes the state with the finger at the
instruction, reads its operands there, and writes into the advanced state (40_decode_and_step.md R102, R107). -/

namespace Sys2Proof.Machine

/-- The shape of addition, multiplication and not_and: `x[A] <- f(x[B], x[C])`. -/
def binaryAlu (f : Word → Word → Word) (a b c : Reg) (s : State) : State :=
  s.advance.setReg a (f (s.reg b) (s.reg c))

/-- conditional_move (R140). -/
def execConditionalMove (a b c : Reg) (s : State) : Host.Outcome State Fault Refusal :=
  .next (if moveTaken (s.reg c) then s.advance.setReg a (s.reg b) else s.advance)

/-- addition (R141). -/
def execAddition (a b c : Reg) (s : State) : Host.Outcome State Fault Refusal :=
  .next (binaryAlu aluAdd a b c s)

/-- multiplication (R142). -/
def execMultiplication (a b c : Reg) (s : State) : Host.Outcome State Fault Refusal :=
  .next (binaryAlu aluMul a b c s)

/-- division (R143). -/
def execDivision (a b c : Reg) (s : State) : Host.Outcome State Fault Refusal :=
  .next (conclude s ((aluDiv (s.reg b) (s.reg c)).map (s.advance.setReg a)))

/-- not_and (R144). -/
def execNotAnd (a b c : Reg) (s : State) : Host.Outcome State Fault Refusal :=
  .next (binaryAlu aluNand a b c s)

/-- orthography (R145). -/
def execOrthography (sa : Reg) (imm : Word) (s : State) : Host.Outcome State Fault Refusal :=
  .next (s.advance.setReg sa (immediate imm))

end Sys2Proof.Machine
end

