-- ==== Sys2Proof/Machine/Array.lean ====
section
/-! DEFINITION. The four array instructions: load, store, allocate, abandon (43_array.md). -/

namespace Sys2Proof.Machine

/-- array_index (R160): identifier in B, offset in C. -/
def execArrayIndex (a b c : Reg) (s : State) : Host.Outcome State Fault Refusal :=
  let ea := s.address b c
  .next (conclude s ((memRead s.heap ea.1 ea.2).map (s.advance.setReg a)))

/-- array_amendment (R161): identifier in A, offset in B, value in C. -/
def execArrayAmendment (a b c : Reg) (s : State) : Host.Outcome State Fault Refusal :=
  let ea := s.address a b
  .next (conclude s ((memWrite s.heap ea.1 ea.2 (s.reg c)).map s.advance.setHeap))

/-- allocation (R162): the length is read before the identifier is written. -/
def execAllocation (b c : Reg) (s : State) : Host.Outcome State Fault Refusal :=
  let n := s.reg c
  .next (conclude s ((allocate (s.heapAdmits n) n s.heap).map fun r => (s.advance.setHeap r.2).setReg b r.1))

/-- abandonment (R163). -/
def execAbandonment (c : Reg) (s : State) : Host.Outcome State Fault Refusal :=
  .next (conclude s ((abandon (s.reg c) s.heap).map s.advance.setHeap))

end Sys2Proof.Machine
end

