-- ==== Sys2Proof/Machine/Control.lean ====
section
/-! DEFINITION. The two control instructions (44_control.md). -/

namespace Sys2Proof.Machine

/-- halt (R180): the status, and the finger keeps its advanced value (10_state.md R24). -/
def execHalt (s : State) : Host.Outcome State Fault Refusal :=
  .next (s.advance.setStatus .halted)

/-- load_program (R181): a jump when `x[B]` is 0, else a clone into segment 0 and a jump. -/
def execLoadProgram (b c : Reg) (s : State) : Host.Outcome State Fault Refusal :=
  let src := s.reg b
  let t := s.reg c
  .next (if src = 0#32 then s.setPc t
    else conclude s ((cloneIntoZero s.heapAdmits src s.heap).map fun h => (s.setHeap h).setPc t))

end Sys2Proof.Machine
end

