-- ==== Sys2Proof/Machine/Io.lean ====
section
/-! DEFINITION. The two I/O instructions, up to the ports (45_io.md). -/

namespace Sys2Proof.Machine

/-- output (R190): the range is tested first, then the host answers. -/
def execOutput (c : Reg) (s : State) : Host.Outcome State Fault Refusal :=
  let v := s.reg c
  .next (conclude s (
    if 255 < v.toNat then .error .outputOutOfRange
    else match s.outputAnswer (lowByte v) with
      | .ok => .ok (s.advance.emit (lowByte v))
      | .ioError => .error .ioError))

/-- input (R191). With no answer from the host the machine is held: nothing changes and the finger stays at the `input`
(R193; log 4). -/
def execInput (c : Reg) (s : State) : Host.Outcome State Fault Refusal :=
  match s.host.inputs with
  | [] => .next s
  | .byte b :: rest => .next ((s.advance.setInputs rest).setReg c (zextByte b))
  | .endOfInput :: rest => .next ((s.advance.setInputs rest).setReg c Config.endOfInputWord)
  | .ioError :: rest => .next (takeFault .ioError (s.setInputs rest))

end Sys2Proof.Machine
end

