-- ==== Sys2Proof/Machine/Dispatch.lean ====
section
/-! DEFINITION. Dispatch: one arm for each instruction (40_decode_and_step.md R104). The state has the finger at the
instruction; the meaning advances it. -/

namespace Sys2Proof.Machine

/-- The meaning of one instruction. -/
def exec (i : Instr) (s : State) : Host.Outcome State Fault Refusal :=
  match i with
  | .conditionalMove a b c => Sys2Proof.Machine.execConditionalMove a b c s
  | .arrayIndex a b c => Sys2Proof.Machine.execArrayIndex a b c s
  | .arrayAmendment a b c => Sys2Proof.Machine.execArrayAmendment a b c s
  | .addition a b c => Sys2Proof.Machine.execAddition a b c s
  | .multiplication a b c => Sys2Proof.Machine.execMultiplication a b c s
  | .division a b c => Sys2Proof.Machine.execDivision a b c s
  | .notAnd a b c => Sys2Proof.Machine.execNotAnd a b c s
  | .halt => Sys2Proof.Machine.execHalt s
  | .allocation b c => Sys2Proof.Machine.execAllocation b c s
  | .abandonment c => Sys2Proof.Machine.execAbandonment c s
  | .output c => Sys2Proof.Machine.execOutput c s
  | .input c => Sys2Proof.Machine.execInput c s
  | .loadProgram b c => Sys2Proof.Machine.execLoadProgram b c s
  | .orthography sa imm => Sys2Proof.Machine.execOrthography sa imm s

end Sys2Proof.Machine
end

