-- ==== Sys2Proof/Machine/Fetch.lean ====
section
/-! DEFINITION. The stages of one step of a running machine (40_decode_and_step.md R102), and placing a word where the next
step fetches. -/

namespace Sys2Proof.Machine

/-- Fetch, decode, execute (R102). The fetch fault leaves the finger at the failed offset; the decode fault is raised after
the advance (60_exceptions.md R212). -/
def runOne (s : State) : Host.Outcome State Fault Refusal :=
  match codeFetch s.heap s.pc with
  | .error k => .next (raiseFault k s.pc s)
  | .ok w =>
    match decode w with
    | .error _ => .next (takeFault .undefinedOpcode s)
    | .ok i => exec i s

/-- The offset a word can be placed at for the next fetch: the finger, or 0 for the one finger value that is an offset of no
segment, since no segment is longer than 2^32-1 (00_scope.md R8; log 9). -/
def placementOffset (pc : Word) : Word := if pc.toNat < Config.maxSegmentLength then pc else 0#32

/-- Segment 0 long enough to hold offset `o`, its other words kept; an empty one where there is none. -/
def segmentZeroReaching (o : Word) (h : Heap) : Segment :=
  match h.segment? 0#32 with
  | some g => if o.toNat < g.length.toNat then g else { g with length := o + 1#32 }
  | none => .zeros (o + 1#32)

/-- The heap with slot 0 holding segment `g`. -/
def withSegmentZero (g : Segment) (h : Heap) : Heap :=
  match h.slots with
  | [] => { h with slots := [.live g] }
  | _ :: rest => { h with slots := .live g :: rest }

/-- The running machine with word `w` at the finger in segment 0, standing for the host's load of a program (log 9). -/
def placeWord (w : Word) (s : State) : State :=
  let o := placementOffset s.pc
  { s with
    pc := o
    status := .running
    heap := withSegmentZero ((segmentZeroReaching o s.heap).write o.toNat w) s.heap }

end Sys2Proof.Machine
end

