-- ==== Sys2Proof/Machine/Step.lean ====
section
/-! DEFINITION. The step, and the hook that places an instruction word where the next step fetches. -/

namespace Sys2Proof.Machine

/-- One step: it exists only while the status is RUNNING (40_decode_and_step.md R105). -/
def step (s : State) : Host.Outcome State Fault Refusal :=
  match s.status with
  | .running => runOne s
  | .halted => .fault .halted
  | .faulted k o => .fault (.faulted k o)

/-- `s` with the instruction word of an opcode-table row stored where `step` fetches its next instruction, and the machine
running. -/
def State.withFetchWord (s : State) (nbits w : Nat) : State := placeWord (tableWord nbits w) s

end Sys2Proof.Machine
end

