-- ==== Sys2Proof/Machine/Ports.lean ====
section
/-! DEFINITION. The host's side of the core: the loader's contract, the reset and load ports, the input port, the status port
and what the host has received (10_state.md R40 to R44). These are actions of the host between steps, not steps. -/

namespace Sys2Proof.Machine

/-! ### The image -/

/-- Why the loader refuses an image: "malformed program" (60_exceptions.md R221), or more words than a segment can hold
(00_scope.md R8, 92_eei_decisions.md D2). The core is then never reset. -/
inductive LoadError where
  | malformedProgram
  | tooManyWords
deriving DecidableEq, Repr

/-- The word of four image bytes, most significant byte first (20_memory.md R53). -/
def wordOfBytes (b0 b1 b2 b3 : Byte) : Word := b0 ++ b1 ++ b2 ++ b3

/-- The words of a byte sequence in offset order; none when its length is no multiple of 4 (20_memory.md R53,
70_reset_and_hazards.md R241). -/
def wordsOfBytes : List Byte → Option (List Word)
  | [] => some []
  | b0 :: b1 :: b2 :: b3 :: rest => (wordsOfBytes rest).map (wordOfBytes b0 b1 b2 b3 :: ·)
  | [_] => none
  | [_, _] => none
  | [_, _, _] => none

/-- The image of a program file, or the loader's refusal. -/
def loadImage (bytes : List Byte) : Except LoadError (List Word) :=
  match wordsOfBytes bytes with
  | none => .error .malformedProgram
  | some ws => if ws.length ≤ Config.maxSegmentLength then .ok ws else .error .tooManyWords

/-! ### Host actions -/

/-- The host asserts reset with an image on the load port: "a reset from any state gives exactly the state of rule R240"
(70_reset_and_hazards.md R243). What the run assumes of the host goes on. -/
def hostReset (image : List Word) (s : State) : State := State.resetWith image s.host

/-- The host has one more answer ready for the input port (10_state.md R43). -/
def hostAnswersInput (a : Config.InputAnswer) (s : State) : State := s.setInputs (s.host.inputs ++ [a])

/-! ### The status port (10_state.md R44) -/

/-- RUNNING = 0, HALTED = 1, FAULTED = 2 (10_state.md R26). -/
def Status.code : Status → Nat
  | .running => 0
  | .halted => 1
  | .faulted _ _ => 2

/-- The 4-bit fault codes 1 to 9 (60_exceptions.md R201). -/
def FaultKind.code : FaultKind → BitVec 4
  | .divisionByZero => 1
  | .segmentIndexOutOfBounds => 2
  | .deadSegment => 3
  | .abandonSegmentZero => 4
  | .outputOutOfRange => 5
  | .undefinedOpcode => 6
  | .fetchOutOfBounds => 7
  | .allocationFailure => 8
  | .ioError => 9

/-- What the host reads: the status, and the fault record while FAULTED. -/
def statusPort (s : State) : Nat × Option (BitVec 4 × Word) :=
  match s.status with
  | .running => (s.status.code, none)
  | .halted => (s.status.code, none)
  | .faulted k o => (s.status.code, some (k.code, o))

/-- The bytes the host has received: exactly `out` at the end of a run; earlier nothing is promised (45_io.md R192; log 16). -/
def receivedOutput (s : State) : Option (List Byte) :=
  match s.status with
  | .running => none
  | .halted => some s.out
  | .faulted _ _ => some s.out

end Sys2Proof.Machine
end

