-- ==== Sys2Proof/Safety.lean ====
section
/-! DEFINITION. The terms claims are stated in: how a run ends, the invariant of good states, and what an instruction leaves
unchanged. -/

namespace Sys2Proof.Machine

/-! ### Runs -/

/-- "The end of a run is the first state with status ≠ RUNNING" (40_decode_and_step.md R105). -/
def Ended (s : State) : Prop := s.status ≠ .running

/-- A fault ended the run; "every claim about a run that goes right takes status ≠ FAULTED at the end as part of what it
proves" (60_exceptions.md R213). -/
def Faulted (s : State) : Prop := ∃ k o, s.status = .faulted k o

/-- A safe run: `n` steps lead to a clean halt. -/
def HaltsWithin (n : Nat) (s : State) : Prop :=
  ∃ k ≤ n, ∃ t, Sys2Proof.core.run k s = .next t ∧ t.status = .halted

/-- The canonical form of memory and the heap invariants, together. -/
abbrev State.Inv (s : State) : Prop := Memory.wf s.heap = true ∧ s.heap.Inv

end Sys2Proof.Machine

namespace Sys2Proof

/-! ### Facts of the instruction table -/

/-- The register an instruction may write (10_state.md R22). -/
def Instr.destination : Instr → Option Reg
  | .conditionalMove a _ _ => some a
  | .arrayIndex a _ _ => some a
  | .arrayAmendment _ _ _ => none
  | .addition a _ _ => some a
  | .multiplication a _ _ => some a
  | .division a _ _ => some a
  | .notAnd a _ _ => some a
  | .halt => none
  | .allocation b _ => some b
  | .abandonment _ => none
  | .output _ => none
  | .input c => some c
  | .loadProgram _ _ => none
  | .orthography sa _ => some sa

/-- The instructions that can change the heap (20_memory.md R51). -/
def Instr.changesHeap : Instr → Bool
  | .conditionalMove _ _ _ => false
  | .arrayIndex _ _ _ => false
  | .arrayAmendment _ _ _ => true
  | .addition _ _ _ => false
  | .multiplication _ _ _ => false
  | .division _ _ _ => false
  | .notAnd _ _ _ => false
  | .halt => false
  | .allocation _ _ => true
  | .abandonment _ => true
  | .output _ => false
  | .input _ => false
  | .loadProgram _ _ => true
  | .orthography _ _ => false

/-- The instructions whose effect depends on a parameter of the run: `heap_admits` or a host's answer (40_decode_and_step.md
R108). -/
def Instr.asksTheHost : Instr → Bool
  | .conditionalMove _ _ _ => false
  | .arrayIndex _ _ _ => false
  | .arrayAmendment _ _ _ => false
  | .addition _ _ _ => false
  | .multiplication _ _ _ => false
  | .division _ _ _ => false
  | .notAnd _ _ _ => false
  | .halt => false
  | .allocation _ _ => true
  | .abandonment _ => false
  | .output _ => true
  | .input _ => true
  | .loadProgram _ _ => true
  | .orthography _ _ => false

/-- The fault kinds an instruction can raise when it executes (60_exceptions.md R201, R211). -/
def Instr.faultKinds : Instr → List Machine.FaultKind
  | .conditionalMove _ _ _ => []
  | .arrayIndex _ _ _ => [.deadSegment, .segmentIndexOutOfBounds]
  | .arrayAmendment _ _ _ => [.deadSegment, .segmentIndexOutOfBounds]
  | .addition _ _ _ => []
  | .multiplication _ _ _ => []
  | .division _ _ _ => [.divisionByZero]
  | .notAnd _ _ _ => []
  | .halt => []
  | .allocation _ _ => [.allocationFailure]
  | .abandonment _ => [.abandonSegmentZero, .deadSegment]
  | .output _ => [.outputOutOfRange, .ioError]
  | .input _ => [.ioError]
  | .loadProgram _ _ => [.deadSegment, .allocationFailure]
  | .orthography _ _ => []

/-- `enc_std(OP, A, B, C)` of 30_encoding.md R93, as the number it writes out. -/
def encStd (op : Nat) (a b c : Reg) : Nat :=
  op * 2 ^ 28 + a.index.toNat * 64 + b.index.toNat * 8 + c.index.toNat

/-- `enc_orth(SA, IMM)` of 30_encoding.md R93, as the number it writes out. -/
def encOrth (sa : Reg) (imm : Nat) : Nat := 13 * 2 ^ 28 + sa.index.toNat * 2 ^ 25 + imm

/-- The bits of the instruction word that an instruction uses; the others are ignored (30_encoding.md R82, R83, R85, R86). -/
def Instr.usedBits : Instr → Word
  | .conditionalMove _ _ _ => 0xF00001FF#32
  | .arrayIndex _ _ _ => 0xF00001FF#32
  | .arrayAmendment _ _ _ => 0xF00001FF#32
  | .addition _ _ _ => 0xF00001FF#32
  | .multiplication _ _ _ => 0xF00001FF#32
  | .division _ _ _ => 0xF00001FF#32
  | .notAnd _ _ _ => 0xF00001FF#32
  | .halt => 0xF0000000#32
  | .allocation _ _ => 0xF000003F#32
  | .abandonment _ => 0xF0000007#32
  | .output _ => 0xF0000007#32
  | .input _ => 0xF0000007#32
  | .loadProgram _ _ => 0xF000003F#32
  | .orthography _ _ => 0xFFFFFFFF#32

end Sys2Proof

namespace Sys2Proof.Machine

/-! ### The instruction a step fetches -/

/-- The step of `s` fetches a word that decodes to `i` (40_decode_and_step.md R102, stages 1 and 3). -/
def Fetches (s : State) (i : Instr) : Prop :=
  ∃ w, codeFetch s.heap s.pc = .ok w ∧ decode w = .ok i

/-! ### Frames -/

/-- No register changes. -/
def KeepsRegs (s t : State) : Prop := ∀ r, t.reg r = s.reg r

/-- No register but `d` changes. -/
def KeepsRegsBut (d : Reg) (s t : State) : Prop := ∀ r, r ≠ d → t.reg r = s.reg r

/-- Memory does not change: the whole heap, and so every word through every identifier and offset. -/
def KeepsMemory (s t : State) : Prop :=
  t.heap = s.heap ∧ ∀ id i, memRead t.heap id i = memRead s.heap id i

/-- Every word outside the address `(id, i)` reads as before, and the table and the free list are as before. -/
def KeepsMemoryBut (id i : Word) (s t : State) : Prop :=
  (∀ id' i', (id', i') ≠ (id, i) → memRead t.heap id' i' = memRead s.heap id' i') ∧
  t.heap.slots.length = s.heap.slots.length ∧ t.heap.free = s.heap.free

/-- Every word of every segment but that of `id` reads as before. -/
def KeepsSegmentsBut (id : Word) (s t : State) : Prop :=
  ∀ id' i, id' ≠ id → memRead t.heap id' i = memRead s.heap id' i

/-- The finger moves to the next word; status, output stream and the host's side do not change. -/
def OnlyAdvances (s t : State) : Prop :=
  t.pc = s.pc + 1#32 ∧ t.status = s.status ∧ t.out = s.out ∧ t.host = s.host

/-- The effect of an instruction that writes `v` to register `d` and nothing else. -/
def WritesOnly (d : Reg) (v : Word) (s t : State) : Prop :=
  t.reg d = v ∧ KeepsRegsBut d s t ∧ KeepsMemory s t ∧ OnlyAdvances s t

/-- The effect of an instruction that writes nothing. -/
def WritesNothing (s t : State) : Prop := KeepsRegs s t ∧ KeepsMemory s t ∧ OnlyAdvances s t

/-- `raise Fault(K)` in decode or execute: status, kind and offset are written, the finger has advanced, "and nothing else
is written" (60_exceptions.md R212). -/
def Raises (k : FaultKind) (s t : State) : Prop :=
  t.status = .faulted k s.pc ∧ t.pc = s.pc + 1#32 ∧ KeepsRegs s t ∧ KeepsMemory s t ∧ t.out = s.out ∧ t.host = s.host

/-- IoError: the record and the finger as for any fault, and no earlier output is lost. Nothing is said of registers and
heap, since "a claim must not rely on registers or heap after an IoError" (45_io.md R194; log 7). -/
def RaisesIoError (s t : State) : Prop :=
  t.status = .faulted .ioError s.pc ∧ t.pc = s.pc + 1#32 ∧ t.out = s.out

end Sys2Proof.Machine
end

