-- ==== Sys2Proof/Certificates/Slice0/Obligations.lean ====
section
/-! DEFINITION. The statements for the provers. Each docstring names the rule of spec/ that it formalises. -/

open Sys2Proof Sys2Proof.Machine

/-! ### Encoding and decoding -/

/-- Decode and encode agree on every well-formed instruction (30_encoding.md R82, R83, R93). -/
def Obligations.DecodeOfEncodeIsTheInstruction : Prop :=
  ∀ i : Instr, i.wellFormed = true → decode (encode i) = .ok i

/-- R93: the encoding functions as numbers, what re-encoding a decoded word returns, and the rule's three worked words. -/
def Obligations.ReencodingClearsExactlyTheUnusedBits : Prop :=
  (∀ (op : BitVec 4) (a b c : Reg),
    (encodeStandard op a.index b.index c.index).toNat = encStd op.toNat a b c) ∧
  (∀ (sa : Reg) (imm : BitVec 25), (encodeSpecial sa.index imm).toNat = encOrth sa imm.toNat) ∧
  (∀ (w : Word) (i : Instr), decode w = .ok i → encode i = w &&& i.usedBits) ∧
  encode (.orthography .x0 0x41#32) = 0xD0000041#32 ∧
  encode (.output .x0) = 0xA0000000#32 ∧
  encode .halt = 0x70000000#32

/-- R100: the six decoder functions, by bit slice and by shift and mask. -/
def Obligations.DecoderFieldsAreTheSlices : Prop :=
  ∀ w : Word,
    ((opField w).toNat = w.toNat / 2 ^ 28 % 2 ^ 4 ∧ (opField w).setWidth 32 = w >>> (28 : Nat)) ∧
    ((aField w).toNat = w.toNat / 2 ^ 6 % 2 ^ 3 ∧ (aField w).setWidth 32 = (w >>> (6 : Nat)) &&& 7#32) ∧
    ((bField w).toNat = w.toNat / 2 ^ 3 % 2 ^ 3 ∧ (bField w).setWidth 32 = (w >>> (3 : Nat)) &&& 7#32) ∧
    ((cField w).toNat = w.toNat % 2 ^ 3 ∧ (cField w).setWidth 32 = w &&& 7#32) ∧
    ((saField w).toNat = w.toNat / 2 ^ 25 % 2 ^ 3 ∧ (saField w).setWidth 32 = (w >>> (25 : Nat)) &&& 7#32) ∧
    ((immField w).toNat = w.toNat % 2 ^ 25 ∧ (immField w).setWidth 32 = w &&& 0x01FFFFFF#32)

/-- R88: the complete opcode map, "w is the instruction iff `w AND mask = match`", with the operands at the bit positions of
R82 and R83. -/
def Obligations.DecodingFollowsTheOpcodeMap : Prop :=
  ∀ (w : Word) (a b c sa : Reg),
    a.index.toNat = w.toNat / 2 ^ 6 % 2 ^ 3 → b.index.toNat = w.toNat / 2 ^ 3 % 2 ^ 3 →
    c.index.toNat = w.toNat % 2 ^ 3 → sa.index.toNat = w.toNat / 2 ^ 25 % 2 ^ 3 →
    (decode w = .ok (.conditionalMove a b c) ↔ w &&& 0xF0000000#32 = 0x00000000#32) ∧
    (decode w = .ok (.arrayIndex a b c) ↔ w &&& 0xF0000000#32 = 0x10000000#32) ∧
    (decode w = .ok (.arrayAmendment a b c) ↔ w &&& 0xF0000000#32 = 0x20000000#32) ∧
    (decode w = .ok (.addition a b c) ↔ w &&& 0xF0000000#32 = 0x30000000#32) ∧
    (decode w = .ok (.multiplication a b c) ↔ w &&& 0xF0000000#32 = 0x40000000#32) ∧
    (decode w = .ok (.division a b c) ↔ w &&& 0xF0000000#32 = 0x50000000#32) ∧
    (decode w = .ok (.notAnd a b c) ↔ w &&& 0xF0000000#32 = 0x60000000#32) ∧
    (decode w = .ok .halt ↔ w &&& 0xF0000000#32 = 0x70000000#32) ∧
    (decode w = .ok (.allocation b c) ↔ w &&& 0xF0000000#32 = 0x80000000#32) ∧
    (decode w = .ok (.abandonment c) ↔ w &&& 0xF0000000#32 = 0x90000000#32) ∧
    (decode w = .ok (.output c) ↔ w &&& 0xF0000000#32 = 0xA0000000#32) ∧
    (decode w = .ok (.input c) ↔ w &&& 0xF0000000#32 = 0xB0000000#32) ∧
    (decode w = .ok (.loadProgram b c) ↔ w &&& 0xF0000000#32 = 0xC0000000#32) ∧
    (decode w = .ok (.orthography sa (BitVec.ofNat 32 (w.toNat % 2 ^ 25))) ↔
      w &&& 0xF0000000#32 = 0xD0000000#32) ∧
    ((∃ e, decode w = .error e) ↔ w &&& 0xF0000000#32 = 0xE0000000#32 ∨ w &&& 0xF0000000#32 = 0xF0000000#32)

/-- R85: two standard-format words that differ only in bits 27..9 are the same instruction, and no value of those bits
faults. -/
def Obligations.StandardFormatIgnoresBits27To9 : Prop :=
  ∀ w v : Word, w.toNat < 0xD0000000 → w &&& 0xF00001FF#32 = v &&& 0xF00001FF#32 →
    decode w = decode v ∧ ∃ i, decode w = .ok i

/-- R86: a register field that the handler does not name may hold any value and changes nothing. -/
def Obligations.UnnamedRegisterFieldsAreIgnored : Prop :=
  ∀ w v : Word,
    (w &&& 0xF0000000#32 = 0x70000000#32 → decode w = .ok .halt) ∧
    (w &&& 0xF0000000#32 = 0x80000000#32 ∨ w &&& 0xF0000000#32 = 0xC0000000#32 →
      w &&& 0xF000003F#32 = v &&& 0xF000003F#32 → decode w = decode v) ∧
    (w &&& 0xF0000000#32 = 0x90000000#32 ∨ w &&& 0xF0000000#32 = 0xA0000000#32 ∨
        w &&& 0xF0000000#32 = 0xB0000000#32 →
      w &&& 0xF0000007#32 = v &&& 0xF0000007#32 → decode w = decode v)

/-- Words written out bit by bit from R82 and R83, one for each family at least (95_test_vectors.md section 2.1). -/
def Obligations.WordsOfTheSpecDecodeAsItSays : Prop :=
  decode 0b00000000000000000000000111000000#32 = .ok (.conditionalMove .x7 .x0 .x0) ∧
  decode 0b00010010001101000101011001111000#32 = .ok (.arrayIndex .x1 .x7 .x0) ∧
  decode 0b01100000000000000000000011010010#32 = .ok (.notAnd .x3 .x2 .x2) ∧
  decode 0b10000000000000000000000000011010#32 = .ok (.allocation .x3 .x2) ∧
  decode 0b10111111111111111111111111111010#32 = .ok (.input .x2) ∧
  decode 0b11000000000000000000000000010000#32 = .ok (.loadProgram .x2 .x0) ∧
  decode 0b11010010001101000101011001111000#32 = .ok (.orthography .x1 0x345678#32) ∧
  decode 0b11100000000000000000000000000000#32 = .error (.undefinedOpcode 14#4)

/-- R87: exactly the words 0xE0000000..0xFFFFFFFF are no instruction, and a running machine that fetches one raises
UndefinedOpcode at its offset, the finger already advanced (R207). -/
def Obligations.OnlyOpcodes14And15AreUndefinedAndFault : Prop :=
  ∀ w : Word,
    ((∃ e, decode w = .error e) ↔ 0xE0000000 ≤ w.toNat) ∧
    ∀ s : State, s.status = .running → codeFetch s.heap s.pc = .ok w → 0xE0000000 ≤ w.toNat →
      ∃ t, step s = .next t ∧ Raises .undefinedOpcode s t

/-! ### The step -/

/-- R102: a running machine whose fetched word decodes to `i` executes `i`. `exec` takes the state at the start of the step,
the finger still at the instruction, and its meanings advance the finger (log 2). -/
def Obligations.StepRunsTheDecodedInstruction : Prop :=
  ∀ (s : State) (i : Instr), s.status = .running → Fetches s i → step s = exec i s

/-- R57: `CodeFetch(i)` is `read(0, i)`; only the name of the fault differs. Segment 0 is always live. -/
def Obligations.CodeFetchIsAReadOfSegmentZero : Prop :=
  ∀ (h : Heap) (i : Word), h.isLive 0#32 = true →
    (∀ w, codeFetch h i = .ok w ↔ memRead h 0#32 i = .ok w) ∧
    (codeFetch h i = .error .fetchOutOfBounds ↔ memRead h 0#32 i = .error .segmentIndexOutOfBounds)

/-- R208: a fetch at or beyond the end of segment 0 raises FetchOutOfBounds with the failing finger value as its offset; the
finger is not advanced and nothing else is written. -/
def Obligations.FetchOutsideSegmentZeroFaults : Prop :=
  ∀ (s : State) (g : Segment), s.status = .running → s.heap.segment? 0#32 = some g → g.length.toNat ≤ s.pc.toNat →
    ∃ t, step s = .next t ∧ t.status = .faulted .fetchOutOfBounds s.pc ∧ t.pc = s.pc ∧
      KeepsRegs s t ∧ KeepsMemory s t ∧ t.out = s.out ∧ t.host = s.host

/-- R105, R213: the step exists exactly while the status is RUNNING; in a terminal state it stops under the name of that
state. -/
def Obligations.StepExistsExactlyWhileRunning : Prop :=
  (∀ s : State, (∃ t, step s = .next t) ↔ s.status = .running) ∧
  (∀ s : State, s.status = .halted → step s = .fault .halted) ∧
  (∀ (s : State) (k : FaultKind) (o : Word), s.status = .faulted k o → step s = .fault (.faulted k o))

/-- R26: out of RUNNING the machine goes to HALTED by `halt` only, and to FAULTED only with the offset of this step. -/
def Obligations.StatusChangesOnlyByHaltOrFault : Prop :=
  ∀ s t : State, step s = .next t →
    s.status = .running ∧
    (t.status = .halted ↔ Fetches s .halt) ∧
    (∀ k o, t.status = .faulted k o → o = s.pc)

/-- R24: each instruction leaves the finger one further, but for `load_program`'s jump and an `input` that is held (R193),
which changes nothing at all. -/
def Obligations.OnlyLoadProgramMovesTheFingerElsewhere : Prop :=
  ∀ (i : Instr) (s t : State), exec i s = .next t →
    t.pc = s.pc + 1#32 ∨ (∃ b c, i = .loadProgram b c ∧ t.pc = s.reg c) ∨
    (∃ c, i = .input c ∧ s.host.inputs = [] ∧ t = s)

/-- R25: the increment never wraps. -/
def Obligations.FingerIncrementNeverWraps : Prop :=
  ∀ (s : State) (w : Word), codeFetch s.heap s.pc = .ok w → (s.pc + 1#32).toNat = s.pc.toNat + 1

/-- R22: no instruction writes a register other than its one destination. Where `output` or `input` ends in an IoError, R194
says that a claim must not rely on registers; that they keep their values there too is the model's (log 7). -/
def Obligations.NoInstructionWritesASecondRegister : Prop :=
  ∀ (i : Instr) (s t : State), exec i s = .next t → ∀ r : Reg, i.destination ≠ some r → t.reg r = s.reg r

/-- R51: no instruction but array_amendment, allocation, abandonment and load_program changes memory. Where `output` or `input`
ends in an IoError, R194 says that a claim must not rely on the heap; that it keeps its words there too is the model's
(log 7). -/
def Obligations.OtherInstructionsLeaveMemoryAlone : Prop :=
  ∀ (i : Instr) (s t : State), i.changesHeap = false → exec i s = .next t → KeepsMemory s t

/-- R35: the output stream only grows, one byte at a time, and only by `output`. -/
def Obligations.OutputStreamOnlyGrowsByOutput : Prop :=
  ∀ s t : State, step s = .next t →
    t.out = s.out ∨ ∃ c b, Fetches s (.output c) ∧ b.toNat = (s.reg c).toNat ∧ t.out = s.out ++ [b]

/-- R30: "K never decreases"; it grows by at most one, and only at an `allocation` with an empty free list. -/
def Obligations.SegmentTableNeverShrinks : Prop :=
  ∀ s t : State, step s = .next t →
    t.heap.slots.length = s.heap.slots.length ∨
    (t.heap.slots.length = s.heap.slots.length + 1 ∧ s.heap.free = [] ∧ ∃ b c, Fetches s (.allocation b c))

/-- R31: a segment's length does not change while its identifier stays live, but for segment 0 at a `load_program` with a
non-zero source. -/
def Obligations.SegmentLengthsAreFixed : Prop :=
  ∀ (s t : State) (id : Word) (g g' : Segment), s.heap.Inv → step s = .next t →
    s.heap.segment? id = some g → t.heap.segment? id = some g' →
    g'.length = g.length ∨ (id = 0#32 ∧ ∃ b c, Fetches s (.loadProgram b c) ∧ s.reg b ≠ 0#32)

/-- R63, the corrected segment-identity property: segment 0 changes only by a `load_program` with a non-zero source or an
`array_amendment` whose identifier is 0. Where a step ends in an IoError, R194 says that a claim must not rely on the heap;
that segment 0 keeps its words there too is the model's (log 7). -/
def Obligations.SegmentZeroChangesOnlyByCloneOrStore : Prop :=
  ∀ s t : State, s.heap.Inv → step s = .next t →
    (∀ i, memRead t.heap 0#32 i = memRead s.heap 0#32 i) ∨
    (∃ b c, Fetches s (.loadProgram b c) ∧ s.reg b ≠ 0#32) ∨
    (∃ a b c, Fetches s (.arrayAmendment a b c) ∧ s.reg a = 0#32)

/-- R108: an instruction that asks neither the storage nor a port does the same whatever the host's side is. -/
def Obligations.OtherInstructionsDoNotDependOnTheHost : Prop :=
  ∀ (i : Instr) (s t : State) (h : HostSide), i.asksTheHost = false → exec i s = .next t →
    exec i { s with host := h } = .next { t with host := h }

/-! ### Faults -/

/-- R212: what taking a fault writes: the kind and the offset of this step; the finger has advanced except after a fetch
fault; registers, heap and output stream keep their values. For IoError only status, finger and output stream are claimed
(R194; log 7). -/
def Obligations.TakingAFaultWritesOnlyTheRecord : Prop :=
  ∀ (s t : State) (k : FaultKind) (o : Word), step s = .next t → t.status = .faulted k o →
    o = s.pc ∧ (t.pc = if k = .fetchOutOfBounds then s.pc else s.pc + 1#32) ∧ t.out = s.out ∧
    (k ≠ .ioError → KeepsRegs s t ∧ KeepsMemory s t ∧ t.host = s.host)

/-- R201, the column "raised by": an executing instruction raises only the kinds that name it. -/
def Obligations.InstructionsRaiseOnlyTheirOwnFaults : Prop :=
  ∀ (i : Instr) (s t : State) (k : FaultKind) (o : Word), s.status = .running → exec i s = .next t →
    t.status = .faulted k o → k ∈ i.faultKinds

/-! ### Reset and image -/

/-- R240, and R243 for a reset from any state `u`: all registers 0, finger 0, RUNNING, one slot that holds the image, free
list and output stream empty. With N = 0 the first step raises FetchOutOfBounds at offset 0. -/
def Obligations.ResetEstablishesTheInitialState : Prop :=
  (∀ (image : List Word) (u : State), image.length < 2 ^ 32 →
    let s := hostReset image u
    (∀ r, s.reg r = 0#32) ∧ s.pc = 0#32 ∧ s.status = .running ∧ s.out = [] ∧
    s.heap.slots.length = 1 ∧ s.heap.free = [] ∧
    ∀ i : Word, memRead s.heap 0#32 i =
      match image[i.toNat]? with
      | some w => .ok w
      | none => .error .segmentIndexOutOfBounds) ∧
  ∀ u : State, ∃ t, step (hostReset [] u) = .next t ∧ t.status = .faulted .fetchOutOfBounds 0#32

/-- R53: word k of the image is made of bytes 4k to 4k+3, most significant first; a byte count that is no multiple of 4 is
refused (R241). -/
def Obligations.ImageBytesAreBigEndian : Prop :=
  ∀ bytes : List Byte,
    ((∃ ws, wordsOfBytes bytes = some ws) ↔ bytes.length % 4 = 0) ∧
    (loadImage bytes = .error .malformedProgram ↔ bytes.length % 4 ≠ 0) ∧
    ∀ ws, wordsOfBytes bytes = some ws →
      bytes.length = 4 * ws.length ∧
      ∀ (k : Nat) (w : Word), ws[k]? = some w →
        ∃ b0 b1 b2 b3, bytes[4 * k]? = some b0 ∧ bytes[4 * k + 1]? = some b1 ∧ bytes[4 * k + 2]? = some b2 ∧
          bytes[4 * k + 3]? = some b3 ∧
          w.toNat = b0.toNat * 2 ^ 24 + b1.toNat * 2 ^ 16 + b2.toNat * 2 ^ 8 + b3.toNat

/-! ### The heap -/

/-- R56: a store tests liveness, then bounds; where it goes through, the word is read back and every other word of every
segment is unchanged. -/
def Obligations.StoreThenLoadReturnsTheValue : Prop :=
  ∀ (h : Heap) (id i v : Word), Memory.wf h = true →
    (h.segment? id = none → memWrite h id i v = .error .deadSegment) ∧
    (∀ g, h.segment? id = some g → g.length.toNat ≤ i.toNat → memWrite h id i v = .error .segmentIndexOutOfBounds) ∧
    (∀ g, h.segment? id = some g → i.toNat < g.length.toNat →
      ∃ h', memWrite h id i v = .ok h' ∧ memRead h' id i = .ok v ∧
        ∀ id' i', (id', i') ≠ (id, i) → memRead h' id' i' = memRead h id' i')

/-- R63: a store to segment 0 is seen by the next fetch, with nothing to be done in between; here the store to the very next
offset, which the next step then executes. -/
def Obligations.StoreToTheNextOffsetIsExecutedNext : Prop :=
  ∀ (a b c : Reg) (s : State) (g : Segment) (i : Instr), Memory.wf s.heap = true → s.status = .running →
    s.reg a = 0#32 → s.heap.segment? 0#32 = some g → s.reg b = s.pc + 1#32 → (s.reg b).toNat < g.length.toNat →
    decode (s.reg c) = .ok i →
    ∃ t, exec (.arrayAmendment a b c) s = .next t ∧ codeFetch t.heap t.pc = .ok (s.reg c) ∧ step t = exec i t

/-- R64: the clone is a copy by value taken at that instant, and fetches see it; later writes to the source or to segment 0 do
not affect the other. -/
def Obligations.CloneIsACopyByValue : Prop :=
  ∀ (admits : Word → Bool) (id : Word) (h h' : Heap), h.isLive 0#32 = true → id ≠ 0#32 →
    cloneIntoZero admits id h = .ok h' →
    (∀ i, memRead h' 0#32 i = memRead h id i ∧ memRead h' id i = memRead h id i) ∧
    (∀ i w, codeFetch h' i = .ok w ↔ memRead h id i = .ok w) ∧
    (∀ i v h'', memWrite h' id i v = .ok h'' →
      ∀ j, memRead h'' 0#32 j = memRead h' 0#32 j ∧ codeFetch h'' j = codeFetch h' j) ∧
    (∀ i v h'', memWrite h' 0#32 i v = .ok h'' → ∀ j, memRead h'' id j = memRead h' id j)

/-- R127: LIFO reuse. The next allocation after an abandonment returns the abandoned identifier, whatever its length, and
leaves on the free list what was there before, so the one after it returns the identifier abandoned before that; with an
empty free list it returns K; the first one after reset returns 1. -/
def Obligations.AllocationReusesTheLastAbandonedIdentifier : Prop :=
  (∀ (h h' : Heap) (id m : Word), abandon id h = .ok h' →
    h'.free = id :: h.free ∧ ∃ h'', allocate true m h' = .ok (id, h'') ∧ h''.free = h.free) ∧
  (∀ (h : Heap) (m : Word), h.free = [] → h.slots.length < 2 ^ 32 →
    ∃ id h', allocate true m h = .ok (id, h') ∧ id.toNat = h.slots.length) ∧
  (∀ (image : List Word) (host : HostSide) (m : Word),
    ∃ h', allocate true m (State.resetWith image host).heap = .ok (1#32, h'))

/-! ### Invariants -/

/-- Reset memory is canonical and meets the heap invariants, for every image the load port can carry (R34: "true after
reset"). `State.reset` is the reset with the empty image (the model's choice, log 8). -/
def Obligations.ResetMeetsTheInvariants : Prop :=
  (∀ (image : List Word) (host : HostSide), image.length < 2 ^ 32 → (State.resetWith image host).Inv) ∧
  State.reset.Inv

/-- Every step keeps memory's canonical form (the model's own representation, log 1). -/
def Obligations.StepKeepsMemoryCanonical : Prop :=
  ∀ s t : State, Memory.wf s.heap = true → step s = .next t → Memory.wf t.heap = true

/-- R34: every step keeps the heap invariants: segment 0 live; the free list holds exactly the dead identifiers, each once,
never 0. -/
def Obligations.StepKeepsTheHeapInvariants : Prop :=
  ∀ s t : State, s.heap.Inv → step s = .next t → t.heap.Inv

/-- Any number of steps from a state that meets the canonical form and the heap invariants ends in one that meets them (R34,
R213: a faulted state is such a state too). -/
def Obligations.RunsKeepTheInvariants : Prop :=
  ∀ (n : Nat) (s t : State), s.Inv → Sys2Proof.core.run n s = .next t → t.Inv

/-- R35 over a run: what was emitted stays, in order, at the front of the output stream. -/
def Obligations.RunsOnlyExtendTheOutput : Prop :=
  ∀ (n : Nat) (s t : State), Sys2Proof.core.run n s = .next t → ∃ later, t.out = s.out ++ later

/-- R44, R26, R201: the status port, its codes, and the fault record while FAULTED; the fault codes are 1 to 9, each for one
kind. At the end of a run the host has received exactly the output stream (R192; before it nothing is promised, log 16). -/
def Obligations.StatusPortShowsStatusAndRecord : Prop :=
  (∀ s : State, s.status = .running → statusPort s = (0, none) ∧ receivedOutput s = none) ∧
  (∀ s : State, s.status = .halted → statusPort s = (1, none) ∧ receivedOutput s = some s.out) ∧
  (∀ (s : State) (k : FaultKind) (o : Word), s.status = .faulted k o →
    statusPort s = (2, some (k.code, o)) ∧ receivedOutput s = some s.out) ∧
  (∀ k : FaultKind, 1 ≤ k.code.toNat ∧ k.code.toNat ≤ 9) ∧
  (∀ k k' : FaultKind, k.code = k'.code → k = k')

/-! ### Register and ALU instructions -/

/-- R140: conditional_move. -/
def Obligations.ConditionalMoveMovesOnANonzeroWord : Prop :=
  ∀ (a b c : Reg) (s : State),
    (encode (.conditionalMove a b c)).toNat = encStd 0 a b c ∧
    (s.reg c ≠ 0#32 → ∃ t, exec (.conditionalMove a b c) s = .next t ∧ WritesOnly a (s.reg b) s t) ∧
    (s.reg c = 0#32 → ∃ t, exec (.conditionalMove a b c) s = .next t ∧ WritesNothing s t)

/-- R141: addition modulo 2^32. -/
def Obligations.AdditionIsModulo2To32 : Prop :=
  ∀ (a b c : Reg) (s : State),
    (encode (.addition a b c)).toNat = encStd 3 a b c ∧
    ∃ t, exec (.addition a b c) s = .next t ∧
      WritesOnly a (BitVec.ofNat 32 (((s.reg b).toNat + (s.reg c).toNat) % 2 ^ 32)) s t

/-- R142: multiplication modulo 2^32. -/
def Obligations.MultiplicationIsModulo2To32 : Prop :=
  ∀ (a b c : Reg) (s : State),
    (encode (.multiplication a b c)).toNat = encStd 4 a b c ∧
    ∃ t, exec (.multiplication a b c) s = .next t ∧
      WritesOnly a (BitVec.ofNat 32 (((s.reg b).toNat * (s.reg c).toNat) % 2 ^ 32)) s t

/-- R143: division, unsigned floor quotient, and the fault on a zero divisor whatever the dividend. -/
def Obligations.DivisionIsTheUnsignedFloorQuotient : Prop :=
  ∀ (a b c : Reg) (s : State),
    (encode (.division a b c)).toNat = encStd 5 a b c ∧
    (s.reg c ≠ 0#32 → ∃ t, exec (.division a b c) s = .next t ∧
      WritesOnly a (BitVec.ofNat 32 ((s.reg b).toNat / (s.reg c).toNat)) s t) ∧
    (s.reg c = 0#32 → ∃ t, exec (.division a b c) s = .next t ∧ Raises .divisionByZero s t)

/-- R144: not_and, "bit i of the result is 0 iff bit i of both operands is 1", that is 2^32 - 1 - (x[B] AND x[C]). -/
def Obligations.NotAndComplementsTheConjunction : Prop :=
  ∀ (a b c : Reg) (s : State),
    (encode (.notAnd a b c)).toNat = encStd 6 a b c ∧
    ∃ t, exec (.notAnd a b c) s = .next t ∧
      WritesOnly a (BitVec.ofNat 32 (2 ^ 32 - 1 - ((s.reg b).toNat &&& (s.reg c).toNat))) s t ∧
      ∀ i < 32, (t.reg a).getLsbD i = !((s.reg b).getLsbD i && (s.reg c).getLsbD i)

/-- orthography writes the whole register with the zero-extended 25-bit immediate; for a well-formed instruction, the only
kind R145 speaks of, that is the immediate itself. That an ill-formed term means its low 25 bits is the model's choice
(log 13). R145 at the level of words is `OrthographyWordLoadsItsImmediate`. -/
def Obligations.OrthographyLoadsTheImmediate : Prop :=
  ∀ (sa : Reg) (imm : Word) (s : State),
    (encode (.orthography sa imm)).toNat = encOrth sa (imm.toNat % 2 ^ 25) ∧
    (∃ t, exec (.orthography sa imm) s = .next t ∧ WritesOnly sa (BitVec.ofNat 32 (imm.toNat % 2 ^ 25)) s t) ∧
    ((Instr.orthography sa imm).wellFormed = true → imm.toNat % 2 ^ 25 = imm.toNat)

/-! ### Array instructions -/

/-- R160: array_index loads the word at (x[B], x[C]); DeadSegment is tested before SegmentIndexOutOfBounds. -/
def Obligations.ArrayIndexLoadsTheAddressedWord : Prop :=
  ∀ (a b c : Reg) (s : State),
    (encode (.arrayIndex a b c)).toNat = encStd 1 a b c ∧
    (s.heap.segment? (s.reg b) = none →
      ∃ t, exec (.arrayIndex a b c) s = .next t ∧ Raises .deadSegment s t) ∧
    (∀ g, s.heap.segment? (s.reg b) = some g → g.length.toNat ≤ (s.reg c).toNat →
      ∃ t, exec (.arrayIndex a b c) s = .next t ∧ Raises .segmentIndexOutOfBounds s t) ∧
    (∀ g, s.heap.segment? (s.reg b) = some g → (s.reg c).toNat < g.length.toNat →
      ∃ t, exec (.arrayIndex a b c) s = .next t ∧ WritesOnly a (g.read (s.reg c).toNat) s t)

/-- R161: array_amendment stores x[C] at the address the meaning computes, `s.address a b`, and nowhere else; DeadSegment is
tested before SegmentIndexOutOfBounds. -/
def Obligations.ArrayAmendmentStoresAtTheAddress : Prop :=
  ∀ (a b c : Reg) (s : State) (id i : Word), Memory.wf s.heap = true → s.address a b = (id, i) →
    (encode (.arrayAmendment a b c)).toNat = encStd 2 a b c ∧
    (id, i) = (s.reg a, s.reg b) ∧
    (s.heap.segment? id = none →
      ∃ t, exec (.arrayAmendment a b c) s = .next t ∧ Raises .deadSegment s t) ∧
    (∀ g, s.heap.segment? id = some g → g.length.toNat ≤ i.toNat →
      ∃ t, exec (.arrayAmendment a b c) s = .next t ∧ Raises .segmentIndexOutOfBounds s t) ∧
    (∀ g, s.heap.segment? id = some g → i.toNat < g.length.toNat →
      ∃ t, exec (.arrayAmendment a b c) s = .next t ∧ memRead t.heap id i = .ok (s.reg c) ∧
        KeepsMemoryBut id i s t ∧ KeepsRegs s t ∧ OnlyAdvances s t)

/-- R162, R120: allocation. When storage and identifiers are there, the identifier is the top of the free list, else K; it
is never 0 and was not live; its segment has exactly x[C] words, all 0; every other segment is unchanged.
AllocationFailure when the storage does not admit the length, and when all 2^32 identifiers exist and none is free. -/
def Obligations.AllocationGivesAFreshZeroedSegment : Prop :=
  ∀ (b c : Reg) (s : State),
    (encode (.allocation b c)).toNat = encStd 8 .x0 b c ∧
    (s.heap.Inv → s.heapAdmits (s.reg c) = true → (s.heap.free ≠ [] ∨ s.heap.slots.length < 2 ^ 32) →
      ∃ t id, exec (.allocation b c) s = .next t ∧ t.reg b = id ∧ KeepsRegsBut b s t ∧
        id ≠ 0#32 ∧ s.heap.isLive id = false ∧
        (∀ top rest, s.heap.free = top :: rest →
          id = top ∧ t.heap.free = rest ∧ t.heap.slots.length = s.heap.slots.length) ∧
        (s.heap.free = [] →
          id.toNat = s.heap.slots.length ∧ t.heap.free = [] ∧ t.heap.slots.length = s.heap.slots.length + 1) ∧
        (∀ i, memRead t.heap id i =
          if i.toNat < (s.reg c).toNat then .ok 0#32 else .error .segmentIndexOutOfBounds) ∧
        KeepsSegmentsBut id s t ∧ OnlyAdvances s t) ∧
    (s.heapAdmits (s.reg c) = false →
      ∃ t, exec (.allocation b c) s = .next t ∧ Raises .allocationFailure s t) ∧
    (s.heap.free = [] → s.heap.slots.length = 2 ^ 32 →
      ∃ t, exec (.allocation b c) s = .next t ∧ Raises .allocationFailure s t)

/-- R163, R121: abandonment makes the identifier dead and puts it on top of the free list; identifier 0 and an identifier
that is not live fault. -/
def Obligations.AbandonmentMakesTheIdentifierDead : Prop :=
  ∀ (c : Reg) (s : State),
    (encode (.abandonment c)).toNat = encStd 9 .x0 .x0 c ∧
    (s.reg c = 0#32 → ∃ t, exec (.abandonment c) s = .next t ∧ Raises .abandonSegmentZero s t) ∧
    (s.reg c ≠ 0#32 → s.heap.isLive (s.reg c) = false →
      ∃ t, exec (.abandonment c) s = .next t ∧ Raises .deadSegment s t) ∧
    (s.reg c ≠ 0#32 → s.heap.isLive (s.reg c) = true →
      ∃ t, exec (.abandonment c) s = .next t ∧ (∀ i, memRead t.heap (s.reg c) i = .error .deadSegment) ∧
        t.heap.free = s.reg c :: s.heap.free ∧ t.heap.slots.length = s.heap.slots.length ∧
        KeepsSegmentsBut (s.reg c) s t ∧ KeepsRegs s t ∧ OnlyAdvances s t)

/-! ### Control instructions -/

/-- R180: halt, every word of opcode 7; only the status changes, the finger keeps its advanced value, HALTED is terminal,
and all output emitted before is with the host. -/
def Obligations.HaltEndsTheRun : Prop :=
  (∀ w : Word, 0x70000000 ≤ w.toNat → w.toNat ≤ 0x7FFFFFFF → decode w = .ok .halt) ∧
  encode .halt = 0x70000000#32 ∧
  ∀ s : State, ∃ t, exec .halt s = .next t ∧ t.status = .halted ∧ t.pc = s.pc + 1#32 ∧ KeepsRegs s t ∧
    KeepsMemory s t ∧ t.out = s.out ∧ t.host = s.host ∧ step t = .fault .halted ∧ receivedOutput t = some s.out

/-- R181: load_program. With x[B] = 0 a plain jump, segment 0 left as it is. With x[B] not 0, segment 0 becomes a value copy
of the source, which stays as it is, and the finger takes x[C]; a source that is not live and a refused clone fault, with
segment 0 unchanged. The target is any word and is not checked: one outside segment 0 faults one step later, with the target
as the offset (R247). -/
def Obligations.LoadProgramJumpsOrClonesAndJumps : Prop :=
  ∀ (b c : Reg) (s : State),
    (encode (.loadProgram b c)).toNat = encStd 12 .x0 b c ∧
    (s.reg b = 0#32 →
      ∃ t, exec (.loadProgram b c) s = .next t ∧ t.pc = s.reg c ∧ KeepsRegs s t ∧ KeepsMemory s t ∧
        t.status = s.status ∧ t.out = s.out ∧ t.host = s.host) ∧
    (s.reg b ≠ 0#32 → s.heap.segment? (s.reg b) = none →
      ∃ t, exec (.loadProgram b c) s = .next t ∧ Raises .deadSegment s t) ∧
    (∀ g, s.reg b ≠ 0#32 → s.heap.segment? (s.reg b) = some g → s.heapAdmits g.length = false →
      ∃ t, exec (.loadProgram b c) s = .next t ∧ Raises .allocationFailure s t) ∧
    (∀ g, s.reg b ≠ 0#32 → s.heap.isLive 0#32 = true → s.heap.segment? (s.reg b) = some g →
      s.heapAdmits g.length = true →
      ∃ t, exec (.loadProgram b c) s = .next t ∧ t.pc = s.reg c ∧
        (∀ i, memRead t.heap 0#32 i = memRead s.heap (s.reg b) i) ∧ KeepsSegmentsBut 0#32 s t ∧
        t.heap.free = s.heap.free ∧ t.heap.slots.length = s.heap.slots.length ∧ KeepsRegs s t ∧
        t.status = s.status ∧ t.out = s.out ∧ t.host = s.host) ∧
    (∀ t g, exec (.loadProgram b c) s = .next t → t.status = .running → t.heap.segment? 0#32 = some g →
      g.length.toNat ≤ (s.reg c).toNat →
      ∃ u, step t = .next u ∧ u.status = .faulted .fetchOutOfBounds (s.reg c))

/-- R183: the conditional branch built from conditional_move and load_program. -/
def Obligations.ConditionalBranchIdiomWorks : Prop :=
  ∀ (z t u c : Reg) (s : State), z ≠ t → s.reg z = 0#32 →
    ∃ s1 s2, exec (.conditionalMove t u c) s = .next s1 ∧ exec (.loadProgram z t) s1 = .next s2 ∧
      (s.reg c ≠ 0#32 → s2.pc = s.reg u) ∧ (s.reg c = 0#32 → s2.pc = s.reg t)

/-! ### I/O instructions -/

/-- R190: output tests the range before anything is emitted, then appends the byte if the host answers Ok; IoError
otherwise, and then the byte is not part of the stream. -/
def Obligations.OutputEmitsAByteInRange : Prop :=
  ∀ (c : Reg) (s : State),
    (encode (.output c)).toNat = encStd 10 .x0 .x0 c ∧
    (255 < (s.reg c).toNat → ∃ t, exec (.output c) s = .next t ∧ Raises .outputOutOfRange s t) ∧
    ∀ b : Byte, b.toNat = (s.reg c).toNat →
      (s.outputAnswer b = .ok →
        ∃ t, exec (.output c) s = .next t ∧ t.out = s.out ++ [b] ∧ t.pc = s.pc + 1#32 ∧ t.status = s.status ∧
          KeepsRegs s t ∧ KeepsMemory s t ∧ t.host = s.host) ∧
      (s.outputAnswer b = .ioError → ∃ t, exec (.output c) s = .next t ∧ RaisesIoError s t)

/-- R191: input writes the zero-extended byte, or the all-ones word at end of input, or raises IoError. That the host's
answers stand in `host.inputs` and that the oldest is taken is the model's choice (log 4). -/
def Obligations.InputDeliversTheHostsAnswer : Prop :=
  ∀ (c : Reg) (s : State) (rest : List Config.InputAnswer),
    (encode (.input c)).toNat = encStd 11 .x0 .x0 c ∧
    (∀ b : Byte, s.host.inputs = .byte b :: rest →
      ∃ t, exec (.input c) s = .next t ∧ t.reg c = BitVec.ofNat 32 b.toNat ∧ KeepsRegsBut c s t ∧
        KeepsMemory s t ∧ t.pc = s.pc + 1#32 ∧ t.status = s.status ∧ t.out = s.out ∧
        t.host = { s.host with inputs := rest }) ∧
    (s.host.inputs = .endOfInput :: rest →
      ∃ t, exec (.input c) s = .next t ∧ (t.reg c).toNat = 2 ^ 32 - 1 ∧ KeepsRegsBut c s t ∧
        KeepsMemory s t ∧ t.pc = s.pc + 1#32 ∧ t.status = s.status ∧ t.out = s.out ∧
        t.host = { s.host with inputs := rest }) ∧
    (s.host.inputs = .ioError :: rest → ∃ t, exec (.input c) s = .next t ∧ RaisesIoError s t)

/-- R193: with no answer from the host an `input` holds the machine: the status stays RUNNING, no state changes, and the
finger is still at the `input`; the host's next answer lifts the hold. That an empty `host.inputs` stands for "no answer
yet" is the model's choice (log 4). -/
def Obligations.InputHoldsUntilTheHostAnswers : Prop :=
  ∀ (c : Reg) (s : State), s.status = .running → Fetches s (.input c) → s.host.inputs = [] →
    step s = .next s ∧
    ∀ a, ∃ t, step (hostAnswersInput a s) = .next t ∧ t.pc = s.pc + 1#32 ∧ t.host = s.host

/-! ### Instruction words -/

/-- R145: a running machine that fetches a word of opcode 13 writes the whole register that bits 27..25 name with the
zero-extended bits 24..0, and nothing else. -/
def Obligations.OrthographyWordLoadsItsImmediate : Prop :=
  ∀ (w : Word) (sa : Reg), 0xD0000000 ≤ w.toNat → w.toNat ≤ 0xDFFFFFFF → sa.index.toNat = w.toNat / 2 ^ 25 % 2 ^ 3 →
    w.toNat = encOrth sa (w.toNat % 2 ^ 25) ∧
    ∀ s : State, s.status = .running → codeFetch s.heap s.pc = .ok w →
      ∃ t, step s = .next t ∧ WritesOnly sa (BitVec.ofNat 32 (w.toNat % 2 ^ 25)) s t
end

