-- ==== Sys2Proof/Laws/Decode.lean ====
section
/-! SUPPORT. The decoder's fields and the encoded formats as numbers, and the register index. -/

namespace Sys2Proof

@[simp] theorem Reg.ofIndex_index (r : Reg) : Reg.ofIndex r.index = r := by
  cases r <;> rfl

@[simp] theorem Reg.index_ofIndex (k : BitVec 3) : (Reg.ofIndex k).index = k := by
  revert k
  decide

theorem Reg.index_injective {r q : Reg} (h : r.index = q.index) : r = q := by
  rw [← Reg.ofIndex_index r, h, Reg.ofIndex_index]

/-! ### The fields as numbers (00_scope.md R12) -/

section Fields

variable (w : Word)

theorem opField_toNat : (opField w).toNat = w.toNat / 2 ^ 28 % 2 ^ 4 := by
  simp only [opField, BitVec.extractLsb'_toNat, Nat.shiftRight_eq_div_pow]

theorem aField_toNat : (aField w).toNat = w.toNat / 2 ^ 6 % 2 ^ 3 := by
  simp only [aField, BitVec.extractLsb'_toNat, Nat.shiftRight_eq_div_pow]

theorem bField_toNat : (bField w).toNat = w.toNat / 2 ^ 3 % 2 ^ 3 := by
  simp only [bField, BitVec.extractLsb'_toNat, Nat.shiftRight_eq_div_pow]

theorem cField_toNat : (cField w).toNat = w.toNat % 2 ^ 3 := by
  simp only [cField, BitVec.extractLsb'_toNat, Nat.shiftRight_zero]

theorem saField_toNat : (saField w).toNat = w.toNat / 2 ^ 25 % 2 ^ 3 := by
  simp only [saField, BitVec.extractLsb'_toNat, Nat.shiftRight_eq_div_pow]

theorem immField_toNat : (immField w).toNat = w.toNat % 2 ^ 25 := by
  simp only [immField, BitVec.extractLsb'_toNat, Nat.shiftRight_zero]

end Fields

/-! ### The two formats -/

section Formats

variable (op : BitVec 4) (a b c sa : BitVec 3) (imm : BitVec 25)

theorem encodeStandard_toNat :
    (encodeStandard op a b c).toNat = op.toNat * 2 ^ 28 + a.toNat * 64 + b.toNat * 8 + c.toNat := by
  have ha := a.isLt
  have hb := b.isLt
  have hc := c.isLt
  simp only [encodeStandard, BitVec.toNat_append, BitVec.toNat_ofNat]
  rw [← Nat.shiftLeft_add_eq_or_of_lt hc, ← Nat.shiftLeft_add_eq_or_of_lt hb, ← Nat.shiftLeft_add_eq_or_of_lt ha,
    ← Nat.shiftLeft_add_eq_or_of_lt (by decide)]
  simp only [Nat.shiftLeft_eq]
  omega

theorem encodeSpecial_toNat : (encodeSpecial sa imm).toNat = 13 * 2 ^ 28 + sa.toNat * 2 ^ 25 + imm.toNat := by
  have hs := sa.isLt
  have hi := imm.isLt
  simp only [encodeSpecial, BitVec.toNat_append, BitVec.toNat_ofNat]
  rw [← Nat.shiftLeft_add_eq_or_of_lt hi, ← Nat.shiftLeft_add_eq_or_of_lt hs]
  simp only [Nat.shiftLeft_eq]
  omega

@[simp] theorem opField_encodeStandard : opField (encodeStandard op a b c) = op := by
  have := a.isLt; have := b.isLt; have := c.isLt; have := op.isLt
  apply BitVec.eq_of_toNat_eq
  rw [opField_toNat, encodeStandard_toNat]
  omega

@[simp] theorem aField_encodeStandard : aField (encodeStandard op a b c) = a := by
  have := a.isLt; have := b.isLt; have := c.isLt
  apply BitVec.eq_of_toNat_eq
  rw [aField_toNat, encodeStandard_toNat]
  omega

@[simp] theorem bField_encodeStandard : bField (encodeStandard op a b c) = b := by
  have := b.isLt; have := c.isLt
  apply BitVec.eq_of_toNat_eq
  rw [bField_toNat, encodeStandard_toNat]
  omega

@[simp] theorem cField_encodeStandard : cField (encodeStandard op a b c) = c := by
  have := c.isLt
  apply BitVec.eq_of_toNat_eq
  rw [cField_toNat, encodeStandard_toNat]
  omega

@[simp] theorem opField_encodeSpecial : opField (encodeSpecial sa imm) = 13#4 := by
  have := sa.isLt; have := imm.isLt
  apply BitVec.eq_of_toNat_eq
  rw [opField_toNat, encodeSpecial_toNat, BitVec.toNat_ofNat]
  omega

@[simp] theorem saField_encodeSpecial : saField (encodeSpecial sa imm) = sa := by
  have := sa.isLt; have := imm.isLt
  apply BitVec.eq_of_toNat_eq
  rw [saField_toNat, encodeSpecial_toNat]
  omega

@[simp] theorem immField_encodeSpecial : immField (encodeSpecial sa imm) = imm := by
  have := sa.isLt; have := imm.isLt
  apply BitVec.eq_of_toNat_eq
  rw [immField_toNat, encodeSpecial_toNat]
  omega

end Formats

/-! ### Masked words -/

/-- The opcode's bits of a word. -/
theorem opcode_masked (w : Word) : w &&& 0xF0000000#32 = (opField w ++ 0#28 : BitVec 32) := by
  apply BitVec.eq_of_getLsbD_eq
  intro j hj
  simp only [opField, BitVec.getLsbD_append, BitVec.getLsbD_extractLsb', BitVec.getLsbD_and]
  interval_cases j <;> simp

/-- The bits that a standard-format instruction with three operands uses. -/
theorem abc_masked (w : Word) : w &&& 0xF00001FF#32 = encodeStandard (opField w) (aField w) (bField w) (cField w) := by
  apply BitVec.eq_of_getLsbD_eq
  intro j hj
  simp only [encodeStandard, opField, aField, bField, cField, BitVec.getLsbD_append, BitVec.getLsbD_extractLsb', BitVec.getLsbD_and]
  interval_cases j <;> simp

/-- The bits that an instruction with operands B and C uses. -/
theorem bc_masked (w : Word) : w &&& 0xF000003F#32 = encodeStandard (opField w) 0#3 (bField w) (cField w) := by
  apply BitVec.eq_of_getLsbD_eq
  intro j hj
  simp only [encodeStandard, opField, bField, cField, BitVec.getLsbD_append, BitVec.getLsbD_extractLsb', BitVec.getLsbD_and]
  interval_cases j <;> simp

/-- The bits that an instruction with operand C uses. -/
theorem c_masked (w : Word) : w &&& 0xF0000007#32 = encodeStandard (opField w) 0#3 0#3 (cField w) := by
  apply BitVec.eq_of_getLsbD_eq
  intro j hj
  simp only [encodeStandard, opField, cField, BitVec.getLsbD_append, BitVec.getLsbD_extractLsb', BitVec.getLsbD_and]
  interval_cases j <;> simp

/-- The special format uses every bit. -/
theorem special_fields (w : Word) : w = (opField w ++ saField w ++ immField w : BitVec 32) := by
  apply BitVec.eq_of_getLsbD_eq
  intro j hj
  simp only [opField, saField, immField, BitVec.getLsbD_append, BitVec.getLsbD_extractLsb']
  interval_cases j <;> simp

/-- A word has opcode `op` exactly when its masked opcode bits are that row's match value (30_encoding.md R88). -/
theorem opcode_match (w : Word) (op : BitVec 4) : w &&& 0xF0000000#32 = (op ++ 0#28 : BitVec 32) ↔ opField w = op := by
  have hk : ∀ k : BitVec 4, opField (k ++ 0#28) = k := by decide
  rw [opcode_masked]
  exact ⟨fun h => by rw [← hk (opField w), h, hk], fun h => by rw [h]⟩

/-! ### The decoder by the value of the opcode field -/

/-- With the opcode known, decoding is one row of the table. -/
theorem decode_of_op {w : Word} {n : Nat} (h : (opField w).toNat = n) : decode w = decodeOp n w := by
  rw [decode, h]

/-- Decoding fails exactly for the opcodes above 13. -/
theorem decode_error_iff {w : Word} : (∃ e, decode w = .error e) ↔ 14 ≤ (opField w).toNat := by
  have hop := (opField w).isLt
  unfold decode
  generalize (opField w).toNat = n at hop ⊢
  interval_cases n <;> simp [decodeOp]

end Sys2Proof
end

