-- ==== Sys2Proof/Laws/Heap.lean ====
section
/-! SUPPORT. What each heap operation can do, the read-after-write laws, and that every memory operation keeps the canonical
form. -/

namespace Sys2Proof.Machine

/-! ### Cells -/

theorem cellAt_of_canonical_lt {lo hi i : Nat} {cs : List (Nat × Word)} (hc : cellsCanonical lo hi cs = true)
    (hi : i < lo) : cellAt i cs = blankWord := by
  induction cs generalizing lo with
  | nil => rfl
  | cons c rest ih =>
    obtain ⟨j, v⟩ := c
    simp only [cellsCanonical, Bool.and_eq_true, decide_eq_true_eq] at hc
    obtain ⟨⟨⟨hlo, -⟩, -⟩, hrest⟩ := hc
    have hne : i ≠ j := by omega
    simp only [cellAt, hne, if_false]
    exact ih hrest (by omega)

/-- Read after write, in a canonical list of cells. -/
theorem cellAt_putCell {lo hi i j : Nat} {v : Word} {cs : List (Nat × Word)} (hc : cellsCanonical lo hi cs = true) :
    cellAt j (putCell i v cs) = if j = i then v else cellAt j cs := by
  induction cs generalizing lo with
  | nil =>
    by_cases hv : v = blankWord <;> by_cases hj : j = i <;> simp [putCell, cellAt, hv, hj]
  | cons c rest ih =>
    obtain ⟨n, u⟩ := c
    simp only [cellsCanonical, Bool.and_eq_true, decide_eq_true_eq] at hc
    obtain ⟨⟨⟨hlo, -⟩, -⟩, hrest⟩ := hc
    have hbelow : ∀ {m}, m < n + 1 → cellAt m rest = blankWord := fun hm => cellAt_of_canonical_lt hrest hm
    by_cases hin : i < n
    · by_cases hv : v = blankWord
      · by_cases hj : j = i
        · subst hj
          have hjn : j ≠ n := by omega
          simp [putCell, cellAt, hin, hv, hjn, hbelow (show j < n + 1 by omega)]
        · simp [putCell, hin, hv, hj]
      · by_cases hj : j = i <;> simp [putCell, cellAt, hin, hv, hj]
    · by_cases heq : i = n
      · subst heq
        by_cases hv : v = blankWord
        · by_cases hj : j = i
          · subst hj
            simp [putCell, hv, hbelow]
          · simp [putCell, cellAt, hv, hj]
        · by_cases hj : j = i <;> simp [putCell, cellAt, hv, hj]
      · by_cases hjn : j = n
        · subst hjn
          have hji : j ≠ i := fun e => heq e.symm
          simp [putCell, cellAt, hin, heq, hji]
        · simp [putCell, cellAt, hin, heq, hjn, ih hrest]

theorem cellsCanonical_weaken {lo lo' hi hi' : Nat} {cs : List (Nat × Word)} (hc : cellsCanonical lo hi cs = true)
    (hlo : lo' ≤ lo) (hhi : hi ≤ hi') : cellsCanonical lo' hi' cs = true := by
  induction cs generalizing lo lo' with
  | nil => rfl
  | cons c rest ih =>
    obtain ⟨j, v⟩ := c
    simp only [cellsCanonical, Bool.and_eq_true, decide_eq_true_eq] at hc ⊢
    obtain ⟨⟨⟨h1, h2⟩, h3⟩, h4⟩ := hc
    exact ⟨⟨⟨by omega, by omega⟩, h3⟩, ih h4 (Nat.le_refl _)⟩

theorem putCell_canonical {lo hi i : Nat} {v : Word} {cs : List (Nat × Word)} (hc : cellsCanonical lo hi cs = true)
    (hlo : lo ≤ i) (hhi : i < hi) : cellsCanonical lo hi (putCell i v cs) = true := by
  induction cs generalizing lo with
  | nil =>
    by_cases hv : v = blankWord
    · simp [putCell, hv, cellsCanonical]
    · simp [putCell, hv, cellsCanonical, hlo, hhi]
  | cons c rest ih =>
    obtain ⟨n, u⟩ := c
    have hc' := hc
    simp only [cellsCanonical, Bool.and_eq_true, decide_eq_true_eq] at hc'
    obtain ⟨⟨⟨h1, h2⟩, h3⟩, h4⟩ := hc'
    by_cases hin : i < n
    · by_cases hv : v = blankWord
      · simpa [putCell, hin, hv] using hc
      · simp [putCell, hin, hv, cellsCanonical, hlo, hhi, h2, h3, h4]
    · by_cases heq : i = n
      · subst heq
        by_cases hv : v = blankWord
        · simpa [putCell, hv] using cellsCanonical_weaken h4 (by omega) (Nat.le_refl _)
        · simp [putCell, hv, cellsCanonical, hlo, hhi, h4]
      · have hrec := ih h4 (show n + 1 ≤ i by omega)
        simp [putCell, hin, heq, cellsCanonical, h1, h2, h3, hrec]

theorem cellsFrom_canonical (ws : List Word) {base hi : Nat} (hhi : base + ws.length ≤ hi) :
    cellsCanonical base hi (cellsFrom base ws) = true := by
  induction ws generalizing base with
  | nil => rfl
  | cons w ws ih =>
    have hlen : base + 1 + ws.length ≤ hi := by simpa [Nat.add_assoc, Nat.add_comm 1] using hhi
    by_cases hw : w = blankWord
    · simpa [cellsFrom, hw] using cellsCanonical_weaken (ih hlen) (Nat.le_succ base) (Nat.le_refl _)
    · simp [cellsFrom, hw, cellsCanonical, ih hlen]
      omega

/-- The cells of a word sequence read as that sequence. -/
theorem cellAt_cellsFrom (ws : List Word) (base i : Nat) :
    cellAt (base + i) (cellsFrom base ws) = (ws[i]?).getD blankWord := by
  induction ws generalizing base i with
  | nil => simp [cellsFrom, cellAt]
  | cons w ws ih =>
    have hcan := cellsFrom_canonical ws (base := base + 1) (Nat.le_refl _)
    cases i with
    | zero =>
      by_cases hw : w = blankWord
      · simp [cellsFrom, hw, cellAt_of_canonical_lt hcan (Nat.lt_succ_self base)]
      · simp [cellsFrom, hw, cellAt]
    | succ i =>
      have hstep := ih (base + 1) i
      have he : base + 1 + i = base + (i + 1) := by omega
      rw [he] at hstep
      by_cases hw : w = blankWord <;> simp [cellsFrom, hw, cellAt, hstep]

/-! ### Segments -/

theorem Segment.read_write (g : Segment) (i j : Nat) (v : Word) (hg : g.canonical = true) :
    (g.write i v).read j = if j = i then v else g.read j := cellAt_putCell hg

@[simp] theorem Segment.write_length (g : Segment) (i : Nat) (v : Word) : (g.write i v).length = g.length := rfl

theorem Segment.write_canonical (g : Segment) {i : Nat} (v : Word) (hg : g.canonical = true)
    (hi : i < g.length.toNat) : (g.write i v).canonical = true :=
  putCell_canonical hg (Nat.zero_le _) hi

@[simp] theorem Segment.zeros_length (n : Word) : (Segment.zeros n).length = n := rfl
@[simp] theorem Segment.zeros_read (n : Word) (i : Nat) : (Segment.zeros n).read i = 0#32 := rfl
@[simp] theorem Segment.zeros_canonical (n : Word) : (Segment.zeros n).canonical = true := rfl

theorem Segment.ofWords_length (ws : List Word) (h : ws.length < 2 ^ 32) :
    (Segment.ofWords ws).length.toNat = ws.length := by
  simp only [Segment.ofWords, BitVec.toNat_ofNat, Nat.mod_eq_of_lt h]

theorem Segment.ofWords_read (ws : List Word) (i : Nat) : (Segment.ofWords ws).read i = (ws[i]?).getD 0#32 := by
  have h := cellAt_cellsFrom ws 0 i
  rw [Nat.zero_add] at h
  exact h

theorem Segment.ofWords_canonical (ws : List Word) (h : ws.length < 2 ^ 32) :
    (Segment.ofWords ws).canonical = true := by
  simp only [Segment.canonical, Segment.ofWords_length ws h]
  exact cellsFrom_canonical ws (by simp)

/-! ### Looking an identifier up -/

theorem segment?_eq_some {h : Heap} {id : Word} {g : Segment} :
    h.segment? id = some g ↔ h.slots[id.toNat]? = some (.live g) := by
  unfold Heap.segment?
  split <;> simp_all

theorem isLive_iff {h : Heap} {id : Word} : h.isLive id = true ↔ ∃ g, h.segment? id = some g := by
  simp [Heap.isLive, Option.isSome_iff_exists]

theorem lt_slots_of_segment? {h : Heap} {id : Word} {g : Segment} (hg : h.segment? id = some g) :
    id.toNat < h.slots.length :=
  (List.getElem?_eq_some_iff.mp (segment?_eq_some.mp hg)).1

/-- The segment an identifier names after one slot is replaced. -/
theorem segment?_set (sl : List Slot) (fr fr' : List Word) (n : Nat) (x : Slot) (id : Word) :
    (Heap.mk (sl.set n x) fr).segment? id =
      if id.toNat = n ∧ n < sl.length then (match x with | .live g => some g | .dead => none)
      else (Heap.mk sl fr').segment? id := by
  unfold Heap.segment?
  by_cases hn : id.toNat = n
  · by_cases hl : n < sl.length
    · subst hn
      simp [hl]
      cases x <;> rfl
    · subst hn
      simp [hl]
  · simp [hn, List.getElem?_set_ne (Ne.symm hn)]

theorem segment?_setSlot (h : Heap) (id' : Word) (x : Slot) (id : Word) :
    (h.setSlot id' x).segment? id =
      if id = id' ∧ id'.toNat < h.slots.length then (match x with | .live g => some g | .dead => none)
      else h.segment? id := by
  have hx := segment?_set h.slots h.free h.free id'.toNat x id
  simp only [BitVec.toNat_inj] at hx
  exact hx

/-! ### Word access -/

theorem memRead_dead {h : Heap} {id i : Word} (hid : h.segment? id = none) : memRead h id i = .error .deadSegment := by
  simp [memRead, hid]

theorem memRead_live {h : Heap} {id i : Word} {g : Segment} (hid : h.segment? id = some g) :
    memRead h id i =
      if i.toNat < g.length.toNat then .ok (g.read i.toNat) else .error .segmentIndexOutOfBounds := by
  simp [memRead, hid]

/-- A read depends on the segment the identifier names, and on nothing else. -/
theorem memRead_congr {h h' : Heap} {id id' : Word} (hs : h.segment? id = h'.segment? id') (i : Word) :
    memRead h id i = memRead h' id' i := by
  simp [memRead, hs]

/-- Everything a store can do. -/
theorem memWrite_cases (h : Heap) (id i v : Word) :
    (h.segment? id = none ∧ memWrite h id i v = .error .deadSegment) ∨
    ∃ g, h.segment? id = some g ∧
      ((g.length.toNat ≤ i.toNat ∧ memWrite h id i v = .error .segmentIndexOutOfBounds) ∨
       (i.toNat < g.length.toNat ∧ memWrite h id i v = .ok (h.setSlot id (.live (g.write i.toNat v))))) := by
  cases hs : h.segment? id with
  | none => exact .inl ⟨rfl, by simp [memWrite, hs]⟩
  | some g =>
    refine .inr ⟨g, rfl, ?_⟩
    by_cases hi : i.toNat < g.length.toNat
    · exact .inr ⟨hi, by simp [memWrite, hs, hi]⟩
    · exact .inl ⟨by omega, by simp [memWrite, hs, hi]⟩

/-- Everything a code fetch can do, segment 0 being live. -/
theorem codeFetch_live {h : Heap} {i : Word} {g : Segment} (hg : h.segment? 0#32 = some g) :
    codeFetch h i = if i.toNat < g.length.toNat then .ok (g.read i.toNat) else .error .fetchOutOfBounds := by
  simp [codeFetch, hg]

/-- The only fault a code fetch raises. -/
theorem codeFetch_error {h : Heap} {i : Word} {k : FaultKind} (hk : codeFetch h i = .error k) :
    k = .fetchOutOfBounds := by
  unfold codeFetch at hk
  split at hk
  · cases hk; rfl
  · split at hk <;> cases hk; rfl

/-! ### Segments as wholes -/

/-- Everything an allocation can do. -/
theorem allocate_cases (admits : Bool) (n : Word) (h : Heap) :
    (admits = false ∧ allocate admits n h = .error .allocationFailure) ∨
    (∃ id rest, admits = true ∧ h.free = id :: rest ∧
      allocate admits n h = .ok (id, { slots := h.slots.set id.toNat (.live (.zeros n)), free := rest })) ∨
    (admits = true ∧ h.free = [] ∧ h.slots.length < 2 ^ 32 ∧
      allocate admits n h =
        .ok (BitVec.ofNat 32 h.slots.length, { h with slots := h.slots ++ [.live (.zeros n)] })) ∨
    (admits = true ∧ h.free = [] ∧ 2 ^ 32 ≤ h.slots.length ∧ allocate admits n h = .error .allocationFailure) := by
  cases admits with
  | false => exact .inl ⟨rfl, rfl⟩
  | true =>
    cases hf : h.free with
    | cons id rest => exact .inr (.inl ⟨id, rest, rfl, rfl, by simp [allocate, hf]⟩)
    | nil =>
      by_cases hk : h.slots.length < 2 ^ 32
      · exact .inr (.inr (.inl ⟨rfl, rfl, hk, by simp only [allocate, hf, Config.maxSlots, hk, if_true]⟩))
      · exact .inr (.inr (.inr ⟨rfl, rfl, by omega, by simp only [allocate, hf, Config.maxSlots, hk, if_true, if_false]⟩))

/-- Everything an abandonment can do. -/
theorem abandon_cases (id : Word) (h : Heap) :
    (id = 0#32 ∧ abandon id h = .error .abandonSegmentZero) ∨
    (id ≠ 0#32 ∧ h.segment? id = none ∧ abandon id h = .error .deadSegment) ∨
    (id ≠ 0#32 ∧ h.isLive id = true ∧
      abandon id h = .ok { slots := h.slots.set id.toNat .dead, free := id :: h.free }) := by
  by_cases h0 : id = 0#32
  · exact .inl ⟨h0, by simp [abandon, h0]⟩
  · cases hs : h.segment? id with
    | none => exact .inr (.inl ⟨h0, rfl, by simp [abandon, h0, Heap.isLive, hs]⟩)
    | some g => exact .inr (.inr ⟨h0, by simp [Heap.isLive, hs], by simp [abandon, h0, Heap.isLive, hs]⟩)

/-- Everything a clone can do. -/
theorem cloneIntoZero_cases (admits : Word → Bool) (id : Word) (h : Heap) :
    (h.segment? id = none ∧ cloneIntoZero admits id h = .error .deadSegment) ∨
    ∃ g, h.segment? id = some g ∧
      ((admits g.length = false ∧ cloneIntoZero admits id h = .error .allocationFailure) ∨
       (admits g.length = true ∧ cloneIntoZero admits id h = .ok (h.setSlot 0#32 (.live g)))) := by
  cases hs : h.segment? id with
  | none => exact .inl ⟨rfl, by simp [cloneIntoZero, hs]⟩
  | some g =>
    refine .inr ⟨g, rfl, ?_⟩
    cases ha : admits g.length with
    | false => exact .inl ⟨rfl, by simp [cloneIntoZero, hs, ha]⟩
    | true => exact .inr ⟨rfl, by simp [cloneIntoZero, hs, ha]⟩

/-! ### The canonical form is kept -/

theorem Memory.wf_iff {h : Heap} : Memory.wf h = true ↔ ∀ sl ∈ h.slots, sl.canonical = true := by
  simp [Memory.wf]

theorem canonical_of_segment? {h : Heap} {id : Word} {g : Segment} (hw : Memory.wf h = true)
    (hg : h.segment? id = some g) : g.canonical = true :=
  Memory.wf_iff.mp hw (.live g) (List.mem_of_getElem? (segment?_eq_some.mp hg))

theorem Memory.wf_set {h : Heap} {n : Nat} {x : Slot} {fr : List Word} (hw : Memory.wf h = true)
    (hx : x.canonical = true) : Memory.wf { slots := h.slots.set n x, free := fr } = true := by
  rw [Memory.wf_iff] at hw ⊢
  intro sl hsl
  rcases List.mem_or_eq_of_mem_set hsl with hm | rfl
  · exact hw sl hm
  · exact hx

theorem memWrite_keeps_wf {h h' : Heap} {id i v : Word} (hw : Memory.wf h = true)
    (ho : memWrite h id i v = .ok h') : Memory.wf h' = true := by
  rcases memWrite_cases h id i v with ⟨-, he⟩ | ⟨g, hg, ⟨-, he⟩ | ⟨hi, he⟩⟩ <;> rw [he] at ho <;> cases ho
  exact Memory.wf_set hw (Segment.write_canonical g v (canonical_of_segment? hw hg) hi)

theorem allocate_keeps_wf {admits : Bool} {n : Word} {h : Heap} {r : Word × Heap} (hw : Memory.wf h = true)
    (ho : allocate admits n h = .ok r) : Memory.wf r.2 = true := by
  rcases allocate_cases admits n h with ⟨-, he⟩ | ⟨id, rest, -, -, he⟩ | ⟨-, -, -, he⟩ | ⟨-, -, -, he⟩ <;>
    rw [he] at ho <;> cases ho
  · exact Memory.wf_set hw (Segment.zeros_canonical n)
  · rw [Memory.wf_iff] at hw ⊢
    intro sl hsl
    rcases List.mem_append.mp hsl with hm | hm
    · exact hw sl hm
    · rw [List.mem_singleton.mp hm]
      exact Segment.zeros_canonical n

theorem abandon_keeps_wf {id : Word} {h h' : Heap} (hw : Memory.wf h = true) (ho : abandon id h = .ok h') :
    Memory.wf h' = true := by
  rcases abandon_cases id h with ⟨-, he⟩ | ⟨-, -, he⟩ | ⟨-, -, he⟩ <;> rw [he] at ho <;> cases ho
  exact Memory.wf_set hw rfl

theorem cloneIntoZero_keeps_wf {admits : Word → Bool} {id : Word} {h h' : Heap} (hw : Memory.wf h = true)
    (ho : cloneIntoZero admits id h = .ok h') : Memory.wf h' = true := by
  rcases cloneIntoZero_cases admits id h with ⟨-, he⟩ | ⟨g, hg, ⟨-, he⟩ | ⟨-, he⟩⟩ <;> rw [he] at ho <;> cases ho
  exact Memory.wf_set hw (canonical_of_segment? hw hg)

/-- Reset memory is canonical, for every image the load port can carry. -/
theorem reset_memory_wf {image : List Word} (host : HostSide) (h : image.length < 2 ^ 32) :
    Memory.wf (State.resetWith image host).heap = true := by
  simp [Memory.wf, State.resetWith, Slot.canonical, Segment.ofWords_canonical image h]

end Sys2Proof.Machine
end

