-- ==== Sys2Proof/Laws/State.lean ====
section
/-! SUPPORT. One lemma for each field under each update of the state, so that no later proof unfolds a record update. -/

namespace Sys2Proof.Machine

variable (s : State) (r q : Reg) (v t : Word) (h : Heap) (st : Status) (b : Byte)
  (as : List Config.InputAnswer) (k : FaultKind) (o : Word)

/-! ### The register file -/

theorem Regs.get_set (x : Regs) : (x.set r v).get q = if q = r then v else x.get q := by
  cases r <;> cases q <;> rfl

@[simp] theorem Regs.get_set_same (x : Regs) : (x.set r v).get r = v := by
  simp [Regs.get_set]

theorem Regs.get_set_other (x : Regs) (hq : q ≠ r) : (x.set r v).get q = x.get q := by
  simp [Regs.get_set, hq]

/-- Two register files that read the same at every register are the same. -/
theorem Regs.ext_get {x y : Regs} (hxy : ∀ r, x.get r = y.get r) : x = y := by
  cases x; cases y
  simp only [Regs.mk.injEq]
  exact ⟨hxy .x0, hxy .x1, hxy .x2, hxy .x3, hxy .x4, hxy .x5, hxy .x6, hxy .x7⟩

/-! ### setReg -/

@[simp] theorem setReg_pc : (s.setReg r v).pc = s.pc := rfl
@[simp] theorem setReg_status : (s.setReg r v).status = s.status := rfl
@[simp] theorem setReg_heap : (s.setReg r v).heap = s.heap := rfl
@[simp] theorem setReg_out : (s.setReg r v).out = s.out := rfl
@[simp] theorem setReg_host : (s.setReg r v).host = s.host := rfl
theorem setReg_reg : (s.setReg r v).reg q = if q = r then v else s.reg q := Regs.get_set r q v s.regs
@[simp] theorem setReg_reg_same : (s.setReg r v).reg r = v := Regs.get_set_same r v s.regs
theorem setReg_reg_other (hq : q ≠ r) : (s.setReg r v).reg q = s.reg q := Regs.get_set_other r q v s.regs hq

/-! ### setPc -/

@[simp] theorem setPc_pc : (s.setPc t).pc = t := rfl
@[simp] theorem setPc_status : (s.setPc t).status = s.status := rfl
@[simp] theorem setPc_heap : (s.setPc t).heap = s.heap := rfl
@[simp] theorem setPc_out : (s.setPc t).out = s.out := rfl
@[simp] theorem setPc_host : (s.setPc t).host = s.host := rfl
@[simp] theorem setPc_regs : (s.setPc t).regs = s.regs := rfl
@[simp] theorem setPc_reg : (s.setPc t).reg r = s.reg r := rfl

/-! ### advance -/

@[simp] theorem advance_pc : s.advance.pc = s.pc + 1#32 := rfl
@[simp] theorem advance_status : s.advance.status = s.status := rfl
@[simp] theorem advance_heap : s.advance.heap = s.heap := rfl
@[simp] theorem advance_out : s.advance.out = s.out := rfl
@[simp] theorem advance_host : s.advance.host = s.host := rfl
@[simp] theorem advance_regs : s.advance.regs = s.regs := rfl
@[simp] theorem advance_reg : s.advance.reg r = s.reg r := rfl

/-! ### setHeap -/

@[simp] theorem setHeap_pc : (s.setHeap h).pc = s.pc := rfl
@[simp] theorem setHeap_status : (s.setHeap h).status = s.status := rfl
@[simp] theorem setHeap_heap : (s.setHeap h).heap = h := rfl
@[simp] theorem setHeap_out : (s.setHeap h).out = s.out := rfl
@[simp] theorem setHeap_host : (s.setHeap h).host = s.host := rfl
@[simp] theorem setHeap_regs : (s.setHeap h).regs = s.regs := rfl
@[simp] theorem setHeap_reg : (s.setHeap h).reg r = s.reg r := rfl

/-! ### setStatus -/

@[simp] theorem setStatus_pc : (s.setStatus st).pc = s.pc := rfl
@[simp] theorem setStatus_status : (s.setStatus st).status = st := rfl
@[simp] theorem setStatus_heap : (s.setStatus st).heap = s.heap := rfl
@[simp] theorem setStatus_out : (s.setStatus st).out = s.out := rfl
@[simp] theorem setStatus_host : (s.setStatus st).host = s.host := rfl
@[simp] theorem setStatus_regs : (s.setStatus st).regs = s.regs := rfl
@[simp] theorem setStatus_reg : (s.setStatus st).reg r = s.reg r := rfl

/-! ### emit -/

@[simp] theorem emit_pc : (s.emit b).pc = s.pc := rfl
@[simp] theorem emit_status : (s.emit b).status = s.status := rfl
@[simp] theorem emit_heap : (s.emit b).heap = s.heap := rfl
@[simp] theorem emit_out : (s.emit b).out = s.out ++ [b] := rfl
@[simp] theorem emit_host : (s.emit b).host = s.host := rfl
@[simp] theorem emit_regs : (s.emit b).regs = s.regs := rfl
@[simp] theorem emit_reg : (s.emit b).reg r = s.reg r := rfl

/-! ### setInputs -/

@[simp] theorem setInputs_pc : (s.setInputs as).pc = s.pc := rfl
@[simp] theorem setInputs_status : (s.setInputs as).status = s.status := rfl
@[simp] theorem setInputs_heap : (s.setInputs as).heap = s.heap := rfl
@[simp] theorem setInputs_out : (s.setInputs as).out = s.out := rfl
@[simp] theorem setInputs_inputs : (s.setInputs as).host.inputs = as := rfl
@[simp] theorem setInputs_storage : (s.setInputs as).host.storage = s.host.storage := rfl
@[simp] theorem setInputs_byteSink : (s.setInputs as).host.byteSink = s.host.byteSink := rfl
@[simp] theorem setInputs_regs : (s.setInputs as).regs = s.regs := rfl
@[simp] theorem setInputs_reg : (s.setInputs as).reg r = s.reg r := rfl

/-! ### Taking a fault -/

@[simp] theorem raiseFault_pc : (raiseFault k o s).pc = s.pc := rfl
@[simp] theorem raiseFault_status : (raiseFault k o s).status = .faulted k o := rfl
@[simp] theorem raiseFault_heap : (raiseFault k o s).heap = s.heap := rfl
@[simp] theorem raiseFault_out : (raiseFault k o s).out = s.out := rfl
@[simp] theorem raiseFault_host : (raiseFault k o s).host = s.host := rfl
@[simp] theorem raiseFault_regs : (raiseFault k o s).regs = s.regs := rfl
@[simp] theorem raiseFault_reg : (raiseFault k o s).reg r = s.reg r := rfl

@[simp] theorem takeFault_pc : (takeFault k s).pc = s.pc + 1#32 := rfl
@[simp] theorem takeFault_status : (takeFault k s).status = .faulted k s.pc := rfl
@[simp] theorem takeFault_heap : (takeFault k s).heap = s.heap := rfl
@[simp] theorem takeFault_out : (takeFault k s).out = s.out := rfl
@[simp] theorem takeFault_host : (takeFault k s).host = s.host := rfl
@[simp] theorem takeFault_regs : (takeFault k s).regs = s.regs := rfl
@[simp] theorem takeFault_reg : (takeFault k s).reg r = s.reg r := rfl

@[simp] theorem conclude_ok (u : State) : conclude s (.ok u) = u := rfl
@[simp] theorem conclude_error : conclude s (.error k) = takeFault k s := rfl

/-- Everything `conclude` can answer: the handler's state, or the fault it raised. -/
theorem conclude_cases (x : Except FaultKind State) :
    (∃ u, x = .ok u ∧ conclude s x = u) ∨ (∃ k, x = .error k ∧ conclude s x = takeFault k s) := by
  cases x with
  | ok u => exact .inl ⟨u, rfl, rfl⟩
  | error k => exact .inr ⟨k, rfl, rfl⟩

end Sys2Proof.Machine
end

