-- ==== Sys2Proof/Laws/Step.lean ====
section
/-! SUPPORT. What one step can do, and that a word placed with `withFetchWord` is the one the next step runs. -/

namespace Sys2Proof.Machine

/-- Every meaning answers a next state: a machine fault is a next state too. -/
theorem exec_answers_next (i : Instr) (s : State) : ∃ t, exec i s = .next t := by
  cases i with
  | input c =>
    show ∃ t, execInput c s = .next t
    unfold execInput
    split <;> exact ⟨_, rfl⟩
  | conditionalMove a b c => exact ⟨_, rfl⟩
  | arrayIndex a b c => exact ⟨_, rfl⟩
  | arrayAmendment a b c => exact ⟨_, rfl⟩
  | addition a b c => exact ⟨_, rfl⟩
  | multiplication a b c => exact ⟨_, rfl⟩
  | division a b c => exact ⟨_, rfl⟩
  | notAnd a b c => exact ⟨_, rfl⟩
  | halt => exact ⟨_, rfl⟩
  | allocation b c => exact ⟨_, rfl⟩
  | abandonment c => exact ⟨_, rfl⟩
  | output c => exact ⟨_, rfl⟩
  | loadProgram b c => exact ⟨_, rfl⟩
  | orthography sa imm => exact ⟨_, rfl⟩

/-- Everything one step of a running machine can do (40_decode_and_step.md R102). -/
theorem runOne_cases (s : State) :
    (codeFetch s.heap s.pc = .error .fetchOutOfBounds ∧ runOne s = .next (raiseFault .fetchOutOfBounds s.pc s)) ∨
    (∃ w e, codeFetch s.heap s.pc = .ok w ∧ decode w = .error e ∧
      runOne s = .next (takeFault .undefinedOpcode s)) ∨
    (∃ w i, codeFetch s.heap s.pc = .ok w ∧ decode w = .ok i ∧ runOne s = exec i s) := by
  cases hf : codeFetch s.heap s.pc with
  | error k =>
    cases codeFetch_error hf
    exact .inl ⟨rfl, by simp only [runOne, hf]⟩
  | ok w =>
    cases hd : decode w with
    | error e => exact .inr (.inl ⟨w, e, rfl, hd, by simp only [runOne, hf, hd]⟩)
    | ok i => exact .inr (.inr ⟨w, i, rfl, hd, by simp only [runOne, hf, hd]⟩)

/-- Everything `step` can do when it answers a next state: the machine was running, and one of three things happened. -/
theorem step_next_cases {s t : State} (h : step s = .next t) :
    s.status = .running ∧
    ((codeFetch s.heap s.pc = .error .fetchOutOfBounds ∧ t = raiseFault .fetchOutOfBounds s.pc s) ∨
     (∃ w e, codeFetch s.heap s.pc = .ok w ∧ decode w = .error e ∧ t = takeFault .undefinedOpcode s) ∨
     (∃ w i, codeFetch s.heap s.pc = .ok w ∧ decode w = .ok i ∧ exec i s = .next t)) := by
  cases hs : s.status with
  | halted => simp only [step, hs] at h; cases h
  | faulted k o => simp only [step, hs] at h; cases h
  | running =>
    refine ⟨rfl, ?_⟩
    have hr : runOne s = .next t := by simpa only [step, hs] using h
    rcases runOne_cases s with ⟨hf, he⟩ | ⟨w, e, hf, hd, he⟩ | ⟨w, i, hf, hd, he⟩ <;> rw [he] at hr
    · exact .inl ⟨hf, by cases hr; rfl⟩
    · exact .inr (.inl ⟨w, e, hf, hd, by cases hr; rfl⟩)
    · exact .inr (.inr ⟨w, i, hf, hd, hr⟩)

theorem step_running {s : State} (h : s.status = .running) : step s = runOne s := by
  simp only [step, h]

/-! ### The placed word -/

theorem placementOffset_lt (pc : Word) : (placementOffset pc).toNat < 2 ^ 32 - 1 := by
  unfold placementOffset
  split
  · assumption
  · decide

theorem segment?_withSegmentZero (g : Segment) (h : Heap) : (withSegmentZero g h).segment? 0#32 = some g := by
  cases hs : h.slots <;> simp [withSegmentZero, hs, Heap.segment?]

theorem segmentZeroReaching_spec {o : Word} {h : Heap} (hw : Memory.wf h = true) (ho : o.toNat < 2 ^ 32 - 1) :
    (segmentZeroReaching o h).canonical = true ∧ o.toNat < (segmentZeroReaching o h).length.toNat := by
  have hsucc : (o + 1#32).toNat = o.toNat + 1 := by
    rw [BitVec.toNat_add]
    simp only [BitVec.toNat_ofNat]
    omega
  unfold segmentZeroReaching
  split
  · rename_i g hg
    have hc := canonical_of_segment? hw hg
    split
    · rename_i hlt
      exact ⟨hc, hlt⟩
    · rename_i hge
      refine ⟨cellsCanonical_weaken hc (Nat.le_refl _) ?_, ?_⟩ <;> simp only [hsucc] <;> omega
  · exact ⟨rfl, by simp only [Segment.zeros_length, hsucc]; omega⟩

/-- The word placed is the word the next step fetches. -/
theorem codeFetch_placeWord (w : Word) {s : State} (hw : Memory.wf s.heap = true) :
    codeFetch (placeWord w s).heap (placeWord w s).pc = .ok w := by
  obtain ⟨hc, hlt⟩ := segmentZeroReaching_spec hw (placementOffset_lt s.pc)
  have hz := segment?_withSegmentZero
    ((segmentZeroReaching (placementOffset s.pc) s.heap).write (placementOffset s.pc).toNat w) s.heap
  show codeFetch (withSegmentZero _ s.heap) (placementOffset s.pc) = .ok w
  rw [codeFetch_live hz, Segment.write_length, if_pos hlt, Segment.read_write _ _ _ _ hc, if_pos rfl]

/-- `step` after `withFetchWord` runs the instruction of that word. -/
theorem step_withFetchWord {s : State} {nbits w : Nat} {i : Instr} (hw : Memory.wf s.heap = true)
    (hd : decodeTableWord nbits w = some i) : step (s.withFetchWord nbits w) = exec i (s.withFetchWord nbits w) := by
  have hdec : decode (tableWord nbits w) = .ok i := by
    unfold decodeTableWord at hd
    split at hd
    · rename_i j hj
      cases hd
      exact hj
    · cases hd
  have hf := codeFetch_placeWord (tableWord nbits w) hw
  show runOne (placeWord (tableWord nbits w) s) = exec i (placeWord (tableWord nbits w) s)
  simp only [runOne, hf, hdec]

end Sys2Proof.Machine
end

