-- ==== Sys2Proof/Laws/Exec.lean ====
section
/-! SUPPORT. The one inversion lemma of `exec`: every effect an instruction can have, each with the guard under which it has
it. Invariants and frames follow by cases on `Effect`. -/

namespace Sys2Proof.Machine

/-- The effects of instruction `i` on state `s`. -/
inductive Effect (i : Instr) (s : State) : State → Prop where
  /-- A fault of the instruction's own kinds, but IoError. -/
  | fault (k : FaultKind) (hk : k ∈ i.faultKinds) (hne : k ≠ .ioError) : Effect i s (takeFault k s)
  /-- IoError from a port; `as` are the host's answers still to come. -/
  | ioError (as : List Config.InputAnswer) (hk : .ioError ∈ i.faultKinds) (ha : i.asksTheHost = true) :
      Effect i s (takeFault .ioError (s.setInputs as))
  /-- A register is written, and nothing else. -/
  | register (d : Reg) (v : Word) (hd : i.destination = some d) (hh : i.changesHeap = false) (hhalt : i ≠ .halt)
      (ha : i.asksTheHost = false) : Effect i s (s.advance.setReg d v)
  /-- conditional_move that does not move. -/
  | nothing (a b c : Reg) (hi : i = .conditionalMove a b c) (hc : s.reg c = 0#32) : Effect i s s.advance
  | store (a b c : Reg) (h : Heap) (hi : i = .arrayAmendment a b c)
      (hs : memWrite s.heap (s.reg a) (s.reg b) (s.reg c) = .ok h) : Effect i s (s.advance.setHeap h)
  | halted (hi : i = .halt) : Effect i s (s.advance.setStatus .halted)
  | allocated (b c : Reg) (r : Word × Heap) (hi : i = .allocation b c)
      (ho : allocate (s.heapAdmits (s.reg c)) (s.reg c) s.heap = .ok r) :
      Effect i s ((s.advance.setHeap r.2).setReg b r.1)
  | abandoned (c : Reg) (h : Heap) (hi : i = .abandonment c) (ho : abandon (s.reg c) s.heap = .ok h) :
      Effect i s (s.advance.setHeap h)
  | emitted (c : Reg) (hi : i = .output c) (hr : (s.reg c).toNat ≤ 255) : Effect i s (s.advance.emit (lowByte (s.reg c)))
  /-- An `input` for which the host has no answer yet. -/
  | held (c : Reg) (hi : i = .input c) (hn : s.host.inputs = []) : Effect i s s
  | received (c : Reg) (a : Config.InputAnswer) (as : List Config.InputAnswer) (v : Word) (hi : i = .input c)
      (hn : s.host.inputs = a :: as) : Effect i s ((s.advance.setInputs as).setReg c v)
  | jumped (b c : Reg) (hi : i = .loadProgram b c) (hb : s.reg b = 0#32) : Effect i s (s.setPc (s.reg c))
  | cloned (b c : Reg) (h : Heap) (hi : i = .loadProgram b c) (hb : s.reg b ≠ 0#32)
      (ho : cloneIntoZero s.heapAdmits (s.reg b) s.heap = .ok h) : Effect i s ((s.setHeap h).setPc (s.reg c))

/-- What `exec` answers is one of the effects. -/
theorem exec_effect {i : Instr} {s t : State} (h : exec i s = .next t) : Effect i s t := by
  cases i with
  | conditionalMove a b c =>
    simp only [exec, execConditionalMove] at h
    by_cases hc : s.reg c = 0#32
    · simp only [moveTaken, hc, bne_self_eq_false, Bool.false_eq_true, if_false] at h
      cases h
      exact .nothing a b c rfl hc
    · simp only [moveTaken, bne_iff_ne.mpr hc, if_true] at h
      cases h
      exact .register a _ rfl rfl (by simp) rfl
  | addition a b c => cases h; exact .register a _ rfl rfl (by simp) rfl
  | multiplication a b c => cases h; exact .register a _ rfl rfl (by simp) rfl
  | notAnd a b c => cases h; exact .register a _ rfl rfl (by simp) rfl
  | orthography sa imm => cases h; exact .register sa _ rfl rfl (by simp) rfl
  | division a b c =>
    simp only [exec, execDivision, aluDiv] at h
    split at h <;> cases h
    · exact .fault .divisionByZero (by simp [Instr.faultKinds]) (by simp)
    · exact .register a _ rfl rfl (by simp) rfl
  | arrayIndex a b c =>
    simp only [exec, execArrayIndex, State.address] at h
    cases hs : s.heap.segment? (s.reg b) with
    | none =>
      rw [memRead_dead hs] at h
      cases h
      exact .fault .deadSegment (by simp [Instr.faultKinds]) (by simp)
    | some g =>
      rw [memRead_live hs] at h
      by_cases hi : (s.reg c).toNat < g.length.toNat
      · rw [if_pos hi] at h
        cases h
        exact .register a _ rfl rfl (by simp) rfl
      · rw [if_neg hi] at h
        cases h
        exact .fault .segmentIndexOutOfBounds (by simp [Instr.faultKinds]) (by simp)
  | arrayAmendment a b c =>
    simp only [exec, execArrayAmendment, State.address] at h
    rcases memWrite_cases s.heap (s.reg a) (s.reg b) (s.reg c) with ⟨-, he⟩ | ⟨g, -, ⟨-, he⟩ | ⟨-, he⟩⟩ <;>
      rw [he] at h <;> cases h
    · exact .fault .deadSegment (by simp [Instr.faultKinds]) (by simp)
    · exact .fault .segmentIndexOutOfBounds (by simp [Instr.faultKinds]) (by simp)
    · exact .store a b c _ rfl he
  | halt => cases h; exact .halted rfl
  | allocation b c =>
    simp only [exec, execAllocation] at h
    rcases allocate_cases (s.heapAdmits (s.reg c)) (s.reg c) s.heap with
      ⟨-, he⟩ | ⟨id, rest, -, -, he⟩ | ⟨-, -, -, he⟩ | ⟨-, -, -, he⟩ <;> rw [he] at h <;> cases h
    · exact .fault .allocationFailure (by simp [Instr.faultKinds]) (by simp)
    · exact .allocated b c _ rfl he
    · exact .allocated b c _ rfl he
    · exact .fault .allocationFailure (by simp [Instr.faultKinds]) (by simp)
  | abandonment c =>
    simp only [exec, execAbandonment] at h
    rcases abandon_cases (s.reg c) s.heap with ⟨-, he⟩ | ⟨-, -, he⟩ | ⟨-, -, he⟩ <;> rw [he] at h <;> cases h
    · exact .fault .abandonSegmentZero (by simp [Instr.faultKinds]) (by simp)
    · exact .fault .deadSegment (by simp [Instr.faultKinds]) (by simp)
    · exact .abandoned c _ rfl he
  | output c =>
    simp only [exec, execOutput] at h
    split at h
    · cases h
      exact .fault .outputOutOfRange (by simp [Instr.faultKinds]) (by simp)
    · rename_i hr
      split at h <;> cases h
      · exact .emitted c rfl (by omega)
      · exact .ioError s.host.inputs (by simp [Instr.faultKinds]) rfl
  | input c =>
    simp only [exec, execInput] at h
    split at h <;> rename_i hn <;> cases h
    · exact .held c rfl hn
    · exact .received c _ _ _ rfl hn
    · exact .received c _ _ _ rfl hn
    · exact .ioError _ (by simp [Instr.faultKinds]) rfl
  | loadProgram b c =>
    simp only [exec, execLoadProgram] at h
    split at h <;> rename_i hb
    · cases h
      exact .jumped b c rfl hb
    · rcases cloneIntoZero_cases s.heapAdmits (s.reg b) s.heap with ⟨-, he⟩ | ⟨g, -, ⟨-, he⟩ | ⟨-, he⟩⟩ <;>
        rw [he] at h <;> cases h
      · exact .fault .deadSegment (by simp [Instr.faultKinds]) (by simp)
      · exact .fault .allocationFailure (by simp [Instr.faultKinds]) (by simp)
      · exact .cloned b c _ rfl hb he

end Sys2Proof.Machine
end

