-- ==== Sys2Proof/Laws/Invariant.lean ====
section
/-! SUPPORT. Every heap operation keeps the heap invariants (10_state.md R34). -/

namespace Sys2Proof.Machine

theorem slot_of_isLive {h : Heap} {id : Word} (hl : h.isLive id = true) :
    ∃ g, h.slots[id.toNat]? = some (.live g) := by
  obtain ⟨g, hg⟩ := isLive_iff.mp hl
  exact ⟨g, segment?_eq_some.mp hg⟩

theorem toNat_lt_slots {h : Heap} {id : Word} {x : Slot} (hx : h.slots[id.toNat]? = some x) :
    id.toNat < h.slots.length := (List.getElem?_eq_some_iff.mp hx).1

/-- An identifier below 2^32 is the word of its own number. -/
theorem ofNat_eq_iff {k : Nat} (hk : k < 2 ^ 32) (id : Word) : BitVec.ofNat 32 k = id ↔ k = id.toNat := by
  constructor
  · rintro rfl
    simp only [BitVec.toNat_ofNat]
    omega
  · rintro rfl
    simp

/-- A free identifier is not live. -/
theorem Heap.Inv.not_live_of_free {h : Heap} (hi : h.Inv) {id : Word} (hf : id ∈ h.free) : h.isLive id = false := by
  have hd := (hi.2.2.2.1 id hf).2
  simp [Heap.isLive, Heap.segment?, hd]

/-- Replacing the segment of a live identifier keeps the invariants. -/
theorem setSlot_live_keeps_Inv {h : Heap} (hi : h.Inv) {id : Word} (hl : h.isLive id = true) (g : Segment) :
    (h.setSlot id (.live g)).Inv := by
  obtain ⟨hlen, h0, hnd, hfree, hdead⟩ := hi
  obtain ⟨g0, hg0⟩ := slot_of_isLive hl
  have hlt := toNat_lt_slots hg0
  refine ⟨by simpa [Heap.setSlot] using hlen, ?_, hnd, ?_, ?_⟩
  · by_cases hz : 0#32 = id <;> simp [Heap.isLive, segment?_setSlot, hz, hlt]
    obtain ⟨gz, hgz⟩ := isLive_iff.mp h0
    simp [hgz]
  · intro id' hid'
    obtain ⟨hne, hd⟩ := hfree id' hid'
    refine ⟨hne, ?_⟩
    have hn : id.toNat ≠ id'.toNat := by
      intro he
      rw [he] at hg0
      rw [hg0] at hd
      cases hd
    simpa [Heap.setSlot, List.getElem?_set_ne hn] using hd
  · intro k hk hd
    simp only [Heap.setSlot, List.length_set] at hk hd ⊢
    by_cases hn : id.toNat = k
    · subst hn
      simp [List.getElem?_set_self hlt] at hd
    · rw [List.getElem?_set_ne hn] at hd
      exact hdead k hk hd

theorem memWrite_keeps_Inv {h h' : Heap} {id i v : Word} (hi : h.Inv) (ho : memWrite h id i v = .ok h') : h'.Inv := by
  rcases memWrite_cases h id i v with ⟨-, he⟩ | ⟨g, hg, ⟨-, he⟩ | ⟨-, he⟩⟩ <;> rw [he] at ho <;> cases ho
  exact setSlot_live_keeps_Inv hi (isLive_iff.mpr ⟨g, hg⟩) _

theorem cloneIntoZero_keeps_Inv {admits : Word → Bool} {id : Word} {h h' : Heap} (hi : h.Inv)
    (ho : cloneIntoZero admits id h = .ok h') : h'.Inv := by
  rcases cloneIntoZero_cases admits id h with ⟨-, he⟩ | ⟨g, hg, ⟨-, he⟩ | ⟨-, he⟩⟩ <;> rw [he] at ho <;> cases ho
  exact setSlot_live_keeps_Inv hi hi.2.1 g

theorem abandon_keeps_Inv {id : Word} {h h' : Heap} (hi : h.Inv) (ho : abandon id h = .ok h') : h'.Inv := by
  rcases abandon_cases id h with ⟨-, he⟩ | ⟨-, -, he⟩ | ⟨hne, hl, he⟩ <;> rw [he] at ho <;> cases ho
  have hnot : id ∉ h.free := fun hf => by
    rw [hi.not_live_of_free hf] at hl
    cases hl
  obtain ⟨hlen, h0, hnd, hfree, hdead⟩ := hi
  obtain ⟨g0, hg0⟩ := slot_of_isLive hl
  have hlt := toNat_lt_slots hg0
  refine ⟨by simpa using hlen, ?_, List.nodup_cons.mpr ⟨hnot, hnd⟩, ?_, ?_⟩
  · have hz : ¬ ((0#32).toNat = id.toNat ∧ id.toNat < h.slots.length) := fun hz =>
      hne (BitVec.eq_of_toNat_eq hz.1).symm
    rw [Heap.isLive, segment?_set h.slots _ h.free, if_neg hz]
    exact h0
  · intro id' hid'
    rcases List.mem_cons.mp hid' with rfl | hid'
    · exact ⟨hne, List.getElem?_set_self hlt⟩
    · obtain ⟨hne', hd⟩ := hfree id' hid'
      refine ⟨hne', ?_⟩
      have hn : id.toNat ≠ id'.toNat := by
        intro he
        rw [he] at hg0
        rw [hg0] at hd
        cases hd
      rw [List.getElem?_set_ne hn]
      exact hd
  · intro k hk hd
    simp only [List.length_set] at hk
    by_cases hn : id.toNat = k
    · subst hn
      simp
    · rw [List.getElem?_set_ne hn] at hd
      exact List.mem_cons_of_mem _ (hdead k hk hd)

theorem allocate_keeps_Inv {admits : Bool} {n : Word} {h : Heap} {r : Word × Heap} (hi : h.Inv)
    (ho : allocate admits n h = .ok r) : r.2.Inv := by
  rcases allocate_cases admits n h with ⟨-, he⟩ | ⟨id, rest, -, hf, he⟩ | ⟨-, hf, hk, he⟩ | ⟨-, -, -, he⟩ <;>
    rw [he] at ho <;> cases ho
  · obtain ⟨hlen, h0, hnd, hfree, hdead⟩ := hi
    rw [hf] at hnd hfree hdead
    obtain ⟨hnot, hnd⟩ := List.nodup_cons.mp hnd
    obtain ⟨hne, hd⟩ := hfree id List.mem_cons_self
    have hlt := toNat_lt_slots hd
    refine ⟨by simpa using hlen, ?_, hnd, ?_, ?_⟩
    · have hz : ¬ ((0#32).toNat = id.toNat ∧ id.toNat < h.slots.length) := fun hz =>
        hne (BitVec.eq_of_toNat_eq hz.1).symm
      rw [Heap.isLive, segment?_set h.slots _ h.free, if_neg hz]
      exact h0
    · intro id' hid'
      obtain ⟨hne', hd'⟩ := hfree id' (List.mem_cons_of_mem _ hid')
      refine ⟨hne', ?_⟩
      have hn : id.toNat ≠ id'.toNat := fun he => hnot (BitVec.eq_of_toNat_eq he ▸ hid')
      rw [List.getElem?_set_ne hn]
      exact hd'
    · intro k hk hd'
      simp only [List.length_set] at hk
      by_cases hn : id.toNat = k
      · subst hn
        rw [List.getElem?_set_self hlt] at hd'
        cases hd'
      · rw [List.getElem?_set_ne hn] at hd'
        rcases List.mem_cons.mp (hdead k hk hd') with he | hm
        · exact absurd ((ofNat_eq_iff (by omega) id).mp he).symm hn
        · exact hm
  · obtain ⟨hlen, h0, hnd, hfree, hdead⟩ := hi
    rw [hf] at hfree hdead
    obtain ⟨g0, hg0⟩ := slot_of_isLive h0
    refine ⟨?_, ?_, hnd, ?_, ?_⟩
    · simp only [List.length_append, List.length_singleton]
      omega
    · refine isLive_iff.mpr ⟨g0, segment?_eq_some.mpr ?_⟩
      rw [List.getElem?_append_left (toNat_lt_slots hg0)]
      exact hg0
    · intro id' hid'
      rw [hf] at hid'
      cases hid'
    · intro k hk' hd
      simp only [List.length_append, List.length_singleton] at hk'
      by_cases hlast : k < h.slots.length
      · rw [List.getElem?_append_left hlast] at hd
        exact absurd (hdead k hlast hd) List.not_mem_nil
      · obtain rfl : k = h.slots.length := by omega
        simp at hd

end Sys2Proof.Machine
end

