-- ==== Sys2Proof/Laws/PerInstr.lean ====
section
/-! SUPPORT. Statements proved for each instruction in turn: the opcode field of the encoded word. -/

namespace Sys2Proof.Laws.EncodedOpcode

/-- The opcode field of an instruction's word is the opcode of its row (30_encoding.md R81, R88). -/
def Statement (i : Instr) : Prop := opField (encode i) = i.opcode

theorem conditionalMove (a b c : Reg) : Statement (.conditionalMove a b c) := opField_encodeStandard _ _ _ _
theorem arrayIndex (a b c : Reg) : Statement (.arrayIndex a b c) := opField_encodeStandard _ _ _ _
theorem arrayAmendment (a b c : Reg) : Statement (.arrayAmendment a b c) := opField_encodeStandard _ _ _ _
theorem addition (a b c : Reg) : Statement (.addition a b c) := opField_encodeStandard _ _ _ _
theorem multiplication (a b c : Reg) : Statement (.multiplication a b c) := opField_encodeStandard _ _ _ _
theorem division (a b c : Reg) : Statement (.division a b c) := opField_encodeStandard _ _ _ _
theorem notAnd (a b c : Reg) : Statement (.notAnd a b c) := opField_encodeStandard _ _ _ _
theorem halt : Statement .halt := opField_encodeStandard _ _ _ _
theorem allocation (b c : Reg) : Statement (.allocation b c) := opField_encodeStandard _ _ _ _
theorem abandonment (c : Reg) : Statement (.abandonment c) := opField_encodeStandard _ _ _ _
theorem output (c : Reg) : Statement (.output c) := opField_encodeStandard _ _ _ _
theorem input (c : Reg) : Statement (.input c) := opField_encodeStandard _ _ _ _
theorem loadProgram (b c : Reg) : Statement (.loadProgram b c) := opField_encodeStandard _ _ _ _
theorem orthography (sa : Reg) (imm : Word) : Statement (.orthography sa imm) := opField_encodeSpecial _ _

end Sys2Proof.Laws.EncodedOpcode
end

