-- ==== Sys2Proof/Tests/Slice0.lean ====
section
/-! SUPPORT. The model's own tests: expected values from 95_test_vectors.md and the examples in the rules; and for each
statement with hypotheses a state and operands that meet them. -/

namespace Sys2Proof.Tests

open Sys2Proof.Machine

/-! ### Helpers -/

/-- The test vectors' conventions: `heap_admits` is constantly true and the host never answers IoError. -/
def vectorHost : HostSide := { storage := .unlimited, byteSink := .accepting, inputs := [] }

/-- The reset state of the vectors, with an image. -/
def load (image : List Word) : State := State.resetWith image vectorHost

/-- That state with the registers x0 to x3 set. -/
def loadRegs (image : List Word) (x0 x1 x2 x3 : Word) : State :=
  { load image with regs := ⟨x0, x1, x2, x3, 0#32, 0#32, 0#32, 0#32⟩ }

/-- Segment 0 with one word, segment 1 with the words given, and segment 2 dead. -/
def threeSlots (w : Word) (one : List Word) : Heap :=
  { slots := [.live (.ofWords [w]), .live (.ofWords one), .dead], free := [2#32] }

/-- A state over those slots with the registers x0 to x3 set. -/
def slotState (w : Word) (one : List Word) (x0 x1 x2 x3 : Word) : State :=
  { loadRegs [w] x0 x1 x2 x3 with heap := threeSlots w one }

/-- The outcome is a next state with property `p`. -/
def nextHas (o : Host.Outcome State Fault Refusal) (p : State → Bool) : Bool :=
  match o with
  | .next t => p t
  | .fault _ => false
  | .refused _ => false

/-! ### Well-formedness -/

theorem test_wf_refuses_a_26_bit_immediate : (Instr.orthography .x0 0x2000000#32).wellFormed = false := by decide
theorem test_wf_accepts_the_largest_immediate : (Instr.orthography .x0 0x1FFFFFF#32).wellFormed = true := by decide

/-! ### Decoding: words of 95_test_vectors.md section 2.1, written out bit by bit -/

theorem test_decode_conditional_move :
    decode 0b00000000000000000000000001010011#32 = .ok (.conditionalMove .x1 .x2 .x3) := by decide
theorem test_decode_array_index :
    decode 0b00010010001101000101011001111000#32 = .ok (.arrayIndex .x1 .x7 .x0) := by decide
theorem test_decode_array_amendment :
    decode 0b00100000000000000000000001000000#32 = .ok (.arrayAmendment .x1 .x0 .x0) := by decide
theorem test_decode_addition :
    decode 0b00111111111111111111111111111111#32 = .ok (.addition .x7 .x7 .x7) := by decide
theorem test_decode_multiplication :
    decode 0b01000000000000000000000011011100#32 = .ok (.multiplication .x3 .x3 .x4) := by decide
theorem test_decode_division :
    decode 0b01010000000000000000000001010011#32 = .ok (.division .x1 .x2 .x3) := by decide
theorem test_decode_not_and :
    decode 0b01100000000000000000000011010010#32 = .ok (.notAnd .x3 .x2 .x2) := by decide
theorem test_decode_halt : decode 0b01111111111111111111111111111111#32 = .ok .halt := by decide
theorem test_decode_allocation :
    decode 0b10000000000000000000000000011010#32 = .ok (.allocation .x3 .x2) := by decide
theorem test_decode_abandonment :
    decode 0b10010000000000000000000000000001#32 = .ok (.abandonment .x1) := by decide
theorem test_decode_output :
    decode 0b10100000000000000000000000000010#32 = .ok (.output .x2) := by decide
theorem test_decode_input :
    decode 0b10111111111111111111111111111010#32 = .ok (.input .x2) := by decide
theorem test_decode_load_program :
    decode 0b11000000000000000000000000010000#32 = .ok (.loadProgram .x2 .x0) := by decide
theorem test_decode_orthography :
    decode 0b11010010001101000101011001111000#32 = .ok (.orthography .x1 0x345678#32) := by decide
theorem test_decode_orthography_top_bits :
    decode 0xD8000000#32 = .ok (.orthography .x4 0#32) ∧
    decode 0xD1000000#32 = .ok (.orthography .x0 0x1000000#32) := by decide
theorem test_decode_bit_9_is_ignored_and_bit_8_is_not :
    decode 0x00000200#32 = .ok (.conditionalMove .x0 .x0 .x0) ∧
    decode 0x00000100#32 = .ok (.conditionalMove .x4 .x0 .x0) := by decide
theorem test_decode_undefined :
    decode 0xE0000000#32 = .error (.undefinedOpcode 14#4) ∧
    decode 0xFFFFFFFF#32 = .error (.undefinedOpcode 15#4) := by decide
theorem test_decodeTableWord : decodeTableWord 32 0x8000001A = some (.allocation .x3 .x2) := by decide

/-! ### Instructions: one step each -/

theorem test_conditional_move_takes_any_nonzero_word :
    nextHas (step (loadRegs [0x00000053#32] 0#32 5#32 9#32 0x80000000#32))
      (fun t => t.reg .x1 == 9#32 && t.reg .x3 == 0x80000000#32 && t.pc == 1#32) = true := by decide
theorem test_conditional_move_into_its_condition :
    nextHas (step (loadRegs [0x000000D3#32] 0#32 5#32 9#32 1#32)) (fun t => t.reg .x3 == 9#32) = true := by decide
theorem test_addition_wraps :
    nextHas (step (loadRegs [0x30000053#32] 0#32 0#32 0xFFFFFFFF#32 2#32)) (fun t => t.reg .x1 == 1#32) = true := by
  decide
theorem test_addition_doubles_itself :
    nextHas (step (loadRegs [0x30000049#32] 0#32 0x80000001#32 0#32 0#32)) (fun t => t.reg .x1 == 2#32) = true := by
  decide
theorem test_multiplication_keeps_the_low_word :
    nextHas (step (loadRegs [0x40000053#32] 0#32 0#32 0x12345678#32 0x9ABCDEF0#32))
      (fun t => t.reg .x1 == 0x242D2080#32) = true := by decide
theorem test_division_is_unsigned :
    nextHas (step (loadRegs [0x50000053#32] 0#32 0#32 0xFFFFFFFF#32 2#32))
      (fun t => t.reg .x1 == 0x7FFFFFFF#32) = true := by decide
theorem test_division_by_zero :
    nextHas (step (loadRegs [0x50000053#32] 0#32 0#32 5#32 0#32))
      (fun t => t.status == .faulted .divisionByZero 0#32 && t.pc == 1#32 && t.reg .x1 == 0#32) = true := by decide
theorem test_not_and :
    nextHas (step (loadRegs [0x60000053#32] 0#32 0#32 0xF0F0F0F0#32 0xFF00FF00#32))
      (fun t => t.reg .x1 == 0x0FFF0FFF#32) = true := by decide
theorem test_orthography_reads_bits_8_to_6_as_immediate :
    nextHas (step (load [0xD00001C0#32])) (fun t => t.reg .x0 == 0x1C0#32 && t.reg .x7 == 0#32) = true := by decide
theorem test_orthography_largest :
    nextHas (step (load [0xDFFFFFFF#32])) (fun t => t.reg .x7 == 0x01FFFFFF#32) = true := by decide
theorem test_array_index_reads_its_own_word :
    nextHas (step { loadRegs [0xD2000001#32, 0x10000081#32] 0#32 1#32 0#32 0#32 with pc := 1#32 })
      (fun t => t.reg .x2 == 0x10000081#32) = true := by decide
theorem test_array_index_of_a_missing_segment :
    nextHas (step (loadRegs [0x10000088#32] 0#32 1#32 0#32 0#32))
      (fun t => t.status == .faulted .deadSegment 0#32 && t.reg .x2 == 0#32) = true := by decide
theorem test_array_amendment_is_seen_by_the_next_load :
    nextHas (step (loadRegs [0x2000000A#32, 0xA0000001#32] 0#32 1#32 0x70000000#32 0#32))
      (fun t => t.heap.segment? 0#32 == some (.ofWords [0x2000000A#32, 0x70000000#32])) = true := by decide
theorem test_array_amendment_out_of_bounds :
    nextHas (step (loadRegs [0x20000009#32] 0#32 1#32 0#32 0#32))
      (fun t => t.status == .faulted .segmentIndexOutOfBounds 0#32) = true := by decide
theorem test_allocation_after_reset_returns_1 :
    nextHas (step (loadRegs [0x8000000A#32] 0#32 0#32 4#32 0#32))
      (fun t => t.reg .x1 == 1#32 && t.heap.segment? 1#32 == some (.ofWords [0#32, 0#32, 0#32, 0#32])) = true := by decide
theorem test_allocation_reads_the_length_first :
    nextHas (step (slotState 0x80000009#32 [] 0#32 3#32 0#32 0#32))
      (fun t => t.reg .x1 == 2#32 && t.heap.free == [] && memRead t.heap 2#32 2#32 == .ok 0#32) = true := by decide
theorem test_abandonment :
    nextHas (step (slotState 0x90000001#32 [7#32] 0#32 1#32 0#32 0#32))
      (fun t => t.heap.free == [1#32, 2#32] && t.heap.segment? 1#32 == none && t.reg .x1 == 1#32) = true := by decide
theorem test_abandonment_of_segment_zero :
    nextHas (step (load [0x90000000#32])) (fun t => t.status == .faulted .abandonSegmentZero 0#32) = true := by decide
theorem test_halt_keeps_the_advanced_finger :
    nextHas (step (load [0x7ABCDEF5#32])) (fun t => t.status == .halted && t.pc == 1#32) = true := by decide
theorem test_load_program_jumps :
    nextHas (step (loadRegs [0xC0000001#32] 0#32 100#32 0#32 0#32))
      (fun t => t.pc == 100#32 && t.status == .running) = true := by decide
theorem test_load_program_clones :
    nextHas (step (slotState 0xC0000009#32 [0#32, 0x70000000#32] 0#32 1#32 0#32 0#32))
      (fun t => t.pc == 1#32 && t.heap.segment? 0#32 == some (.ofWords [0#32, 0x70000000#32])) = true := by decide
theorem test_output_of_255 :
    nextHas (step (loadRegs [0xA0000000#32] 0xFF#32 0#32 0#32 0#32)) (fun t => t.out == [0xFF#8]) = true := by decide
theorem test_output_of_256 :
    nextHas (step (loadRegs [0xA0000000#32] 0x100#32 0#32 0#32 0#32))
      (fun t => t.status == .faulted .outputOutOfRange 0#32 && t.out == []) = true := by decide
theorem test_input_of_byte_255_is_not_the_sentinel :
    nextHas (step (hostAnswersInput (.byte 0xFF#8) (load [0xB0000007#32]))) (fun t => t.reg .x7 == 0xFF#32) = true := by
  decide
theorem test_input_at_end_of_input :
    nextHas (step (hostAnswersInput .endOfInput (load [0xB0000007#32]))) (fun t => t.reg .x7 == 0xFFFFFFFF#32) = true := by
  decide

/-! ### The step, reset, image and ports -/

theorem test_empty_image_faults_on_the_first_fetch :
    nextHas (step State.reset) (fun t => t.status == .faulted .fetchOutOfBounds 0#32 && t.pc == 0#32) = true := by decide
theorem test_undefined_opcode :
    nextHas (step (load [0xE0000000#32])) (fun t => t.status == .faulted .undefinedOpcode 0#32 && t.pc == 1#32) = true := by
  decide
theorem test_image_bytes :
    loadImage [0xD0#8, 0x00#8, 0x00#8, 0x41#8] = .ok [0xD0000041#32] ∧
    loadImage [0xD0#8, 0x00#8, 0x00#8] = .error .malformedProgram := by decide
theorem test_status_port :
    statusPort { load [] with status := .faulted .divisionByZero 2#32 } = (2, some (1#4, 2#32)) := by decide
theorem test_withFetchWord_runs_as_the_first_instruction :
    nextHas (step (State.reset.withFetchWord 32 0xD0000041)) (fun t => t.reg .x0 == 0x41#32) = true := by decide
theorem test_withFetchWord_at_the_last_finger_value :
    nextHas (step (State.withFetchWord { State.reset with pc := 0xFFFFFFFF#32 } 32 0xD0000041))
      (fun t => t.reg .x0 == 0x41#32) = true := by decide
theorem test_writing_zero_removes_the_cell :
    (Segment.ofWords [5#32, 6#32]).write 1 0#32 = Segment.ofWords [5#32, 0#32] := by decide
theorem test_wf_refuses_a_listed_zero :
    Memory.wf { slots := [.live { length := 2#32, cells := [(1, 0#32)] }], free := [] } = false := by decide

/-! ### Witnesses: each statement's hypotheses are met together -/

theorem witness_DecodeOfEncodeIsTheInstruction : (Instr.orthography .x7 0x1FFFFFF#32).wellFormed = true := by decide

theorem witness_ReencodingClearsExactlyTheUnusedBits :
    decode 0x3FFFFFFF#32 = .ok (.addition .x7 .x7 .x7) ∧
    decode 0xDFFFFFFF#32 = .ok (.orthography .x7 0x1FFFFFF#32) := by decide

theorem witness_DecodingFollowsTheOpcodeMap :
    Reg.x1.index.toNat = (0xD2345678#32).toNat / 2 ^ 6 % 2 ^ 3 ∧ Reg.x7.index.toNat = (0xD2345678#32).toNat / 2 ^ 3 % 2 ^ 3 ∧
    Reg.x0.index.toNat = (0xD2345678#32).toNat % 2 ^ 3 ∧ Reg.x1.index.toNat = (0xD2345678#32).toNat / 2 ^ 25 % 2 ^ 3 := by
  decide

theorem witness_StandardFormatIgnoresBits27To9 :
    (0xCFFFFFFF#32).toNat < 0xD0000000 ∧ 0xCFFFFFFF#32 &&& 0xF00001FF#32 = 0xC00001FF#32 &&& 0xF00001FF#32 ∧
    0x0FFFFE00#32 &&& 0xF00001FF#32 = 0x00000000#32 &&& 0xF00001FF#32 := by decide

theorem witness_UnnamedRegisterFieldsAreIgnored :
    0x7FFFFFFF#32 &&& 0xF0000000#32 = 0x70000000#32 ∧
    (0x8FFFFFFF#32 &&& 0xF0000000#32 = 0x80000000#32 ∧
      0x8FFFFFFF#32 &&& 0xF000003F#32 = 0x8000003F#32 &&& 0xF000003F#32) ∧
    (0xCFFFFFC0#32 &&& 0xF0000000#32 = 0xC0000000#32 ∧
      0xCFFFFFC0#32 &&& 0xF000003F#32 = 0xC0000000#32 &&& 0xF000003F#32) ∧
    (0x9FFFFFF8#32 &&& 0xF0000000#32 = 0x90000000#32 ∧
      0x9FFFFFF8#32 &&& 0xF0000007#32 = 0x90000000#32 &&& 0xF0000007#32) ∧
    (0xAFFFFFFF#32 &&& 0xF0000000#32 = 0xA0000000#32 ∧
      0xAFFFFFFF#32 &&& 0xF0000007#32 = 0xA0000007#32 &&& 0xF0000007#32) ∧
    (0xBFFFFFFA#32 &&& 0xF0000000#32 = 0xB0000000#32 ∧
      0xBFFFFFFA#32 &&& 0xF0000007#32 = 0xB0000002#32 &&& 0xF0000007#32) := by decide

theorem witness_OnlyOpcodes14And15AreUndefinedAndFault :
    (load [0xE0000000#32]).status = .running ∧
    codeFetch (load [0xE0000000#32]).heap (load [0xE0000000#32]).pc = .ok 0xE0000000#32 ∧
    0xE0000000 ≤ (0xE0000000#32).toNat := by decide

theorem witness_StepRunsTheDecodedInstruction :
    (load [0x70000000#32]).status = .running ∧ Fetches (load [0x70000000#32]) .halt :=
  ⟨rfl, 0x70000000#32, by decide, by decide⟩

theorem witness_CodeFetchIsAReadOfSegmentZero :
    (load [5#32]).heap.isLive 0#32 = true ∧ codeFetch (load [5#32]).heap 0#32 = .ok 5#32 ∧
    codeFetch (load [5#32]).heap 1#32 = .error .fetchOutOfBounds := by decide

theorem witness_FetchOutsideSegmentZeroFaults :
    let s := { load [5#32] with pc := 1#32 }
    s.status = .running ∧ s.heap.segment? 0#32 = some (.ofWords [5#32]) ∧
    (Segment.ofWords [5#32]).length.toNat ≤ s.pc.toNat := by decide

theorem witness_StepExistsExactlyWhileRunning :
    (load []).status = .running ∧ ({ load [] with status := .halted } : State).status = .halted ∧
    ({ load [] with status := .faulted .ioError 3#32 } : State).status = .faulted .ioError 3#32 := by decide

/-- For the statements about every step: one that halts, one that faults, one that goes on. -/
theorem witness_StatusChangesOnlyByHaltOrFault :
    (∃ t, step (load [0x70000000#32]) = .next t ∧ t.status = .halted) ∧
    (∃ t, step (load [0x50000000#32]) = .next t ∧ t.status = .faulted .divisionByZero 0#32) ∧
    (∃ t, step (load [0x30000000#32]) = .next t ∧ t.status = .running) :=
  ⟨⟨_, rfl, rfl⟩, ⟨_, rfl, rfl⟩, ⟨_, rfl, rfl⟩⟩

/-- For the statements about every instruction: its three outcomes for the finger. -/
theorem witness_OnlyLoadProgramMovesTheFingerElsewhere :
    (∃ t, exec (.addition .x0 .x0 .x0) (load []) = .next t ∧ t.pc = 1#32) ∧
    (∃ t, exec (.loadProgram .x0 .x1) (loadRegs [] 0#32 0xFFFFFFFF#32 0#32 0#32) = .next t ∧ t.pc = 0xFFFFFFFF#32) ∧
    exec (.input .x0) (load []) = .next (load []) :=
  ⟨⟨_, rfl, rfl⟩, ⟨_, rfl, rfl⟩, rfl⟩

theorem witness_FingerIncrementNeverWraps : codeFetch (load [5#32]).heap (load [5#32]).pc = .ok 5#32 := by decide

theorem witness_NoInstructionWritesASecondRegister :
    (∃ t, exec (.addition .x0 .x1 .x2) (load []) = .next t) ∧
    Instr.destination (.addition .x0 .x1 .x2) ≠ some .x1 := ⟨⟨_, rfl⟩, by decide⟩

theorem witness_OtherInstructionsLeaveMemoryAlone :
    Instr.changesHeap (.arrayIndex .x0 .x0 .x0) = false ∧ ∃ t, exec (.arrayIndex .x0 .x0 .x0) (load [5#32]) = .next t :=
  ⟨rfl, _, rfl⟩

theorem witness_OutputStreamOnlyGrowsByOutput :
    ∃ t, step (loadRegs [0xA0000000#32] 0x41#32 0#32 0#32 0#32) = .next t ∧ t.out = [0x41#8] := ⟨_, rfl, rfl⟩

theorem witness_SegmentTableNeverShrinks :
    (∃ t, step (load [0x8000000A#32]) = .next t ∧ t.heap.slots.length = 2) ∧
    ∃ t, step (slotState 0x8000000A#32 [] 0#32 0#32 0#32 0#32) = .next t ∧ t.heap.slots.length = 3 :=
  ⟨⟨_, rfl, rfl⟩, ⟨_, rfl, rfl⟩⟩

/-- The heap of the slot states meets the invariants. -/
theorem threeSlots_inv (w : Word) (one : List Word) : (threeSlots w one).Inv := by
  refine ⟨by simp [threeSlots], by simp [threeSlots, Heap.isLive, Heap.segment?], by simp [threeSlots],
    by simp [threeSlots], ?_⟩
  intro k hk hd
  match k with
  | 0 => simp [threeSlots] at hd
  | 1 => simp [threeSlots] at hd
  | 2 => simp [threeSlots]
  | k + 3 => simp [threeSlots] at hd

/-- So does the heap that holds an image only. -/
theorem load_inv (image : List Word) : (load image).heap.Inv := by
  refine ⟨by simp [load, State.resetWith], by simp [load, State.resetWith, Heap.isLive, Heap.segment?],
    by simp [load, State.resetWith], by simp [load, State.resetWith], ?_⟩
  intro k hk hd
  match k with
  | 0 => simp [load, State.resetWith] at hd
  | k + 1 => simp [load, State.resetWith] at hd

/-- `load_program x1, x1` from a two-word segment: segment 0's length changes, segment 1's does not. -/
theorem witness_SegmentLengthsAreFixed :
    let s := slotState 0xC0000009#32 [0#32, 0x70000000#32] 0#32 1#32 0#32 0#32
    s.heap.Inv ∧ ∃ t, step s = .next t ∧
      s.heap.segment? 0#32 = some (.ofWords [0xC0000009#32]) ∧
      t.heap.segment? 0#32 = some (.ofWords [0#32, 0x70000000#32]) ∧
      s.heap.segment? 1#32 = some (.ofWords [0#32, 0x70000000#32]) ∧
      t.heap.segment? 1#32 = some (.ofWords [0#32, 0x70000000#32]) :=
  ⟨threeSlots_inv _ _, _, rfl, rfl, rfl, rfl, rfl⟩

theorem witness_SegmentZeroChangesOnlyByCloneOrStore :
    let s := loadRegs [0x2000000A#32, 0xA0000001#32] 0#32 1#32 0x70000000#32 0#32
    s.heap.Inv ∧ ∃ t, step s = .next t ∧ memRead t.heap 0#32 1#32 = .ok 0x70000000#32 :=
  ⟨load_inv _, _, rfl, rfl⟩

theorem witness_OtherInstructionsDoNotDependOnTheHost :
    Instr.asksTheHost (.division .x0 .x0 .x0) = false ∧ ∃ t, exec (.division .x0 .x0 .x0) (load []) = .next t :=
  ⟨rfl, _, rfl⟩

/-- A fetch fault, an execution fault and an IoError. -/
theorem witness_TakingAFaultWritesOnlyTheRecord :
    (∃ t, step (load []) = .next t ∧ t.status = .faulted .fetchOutOfBounds 0#32) ∧
    (∃ t, step (load [0x50000000#32]) = .next t ∧ t.status = .faulted .divisionByZero 0#32) ∧
    (∃ t, step (hostAnswersInput .ioError (load [0xB0000001#32])) = .next t ∧ t.status = .faulted .ioError 0#32) :=
  ⟨⟨_, rfl, rfl⟩, ⟨_, rfl, rfl⟩, ⟨_, rfl, rfl⟩⟩

theorem witness_InstructionsRaiseOnlyTheirOwnFaults :
    (load []).status = .running ∧ ∃ t, exec (.abandonment .x0) (load []) = .next t ∧
      t.status = .faulted .abandonSegmentZero 0#32 := ⟨rfl, _, rfl, rfl⟩

theorem witness_ResetEstablishesTheInitialState :
    [0x70000000#32].length < 2 ^ 32 ∧ ([] : List Word).length < 2 ^ 32 := by decide

theorem witness_ImageBytesAreBigEndian :
    wordsOfBytes [0xD0#8, 0x00#8, 0x00#8, 0x41#8] = some [0xD0000041#32] ∧ [0xD0000041#32][0]? = some 0xD0000041#32 := by
  decide

/-- The three clauses: no segment, an offset at the length, the last valid offset. -/
theorem witness_StoreThenLoadReturnsTheValue :
    let h := threeSlots 5#32 [6#32, 7#32]
    Memory.wf h = true ∧ h.segment? 2#32 = none ∧ h.segment? 1#32 = some (.ofWords [6#32, 7#32]) ∧
    (Segment.ofWords [6#32, 7#32]).length.toNat ≤ (2#32).toNat ∧
    (1#32).toNat < (Segment.ofWords [6#32, 7#32]).length.toNat := by decide

theorem witness_StoreToTheNextOffsetIsExecutedNext :
    let s := loadRegs [0x2000000A#32, 0xA0000001#32] 0#32 1#32 0x70000000#32 0#32
    Memory.wf s.heap = true ∧ s.status = .running ∧ s.reg .x0 = 0#32 ∧
    s.heap.segment? 0#32 = some (.ofWords [0x2000000A#32, 0xA0000001#32]) ∧ s.reg .x1 = s.pc + 1#32 ∧
    (s.reg .x1).toNat < (Segment.ofWords [0x2000000A#32, 0xA0000001#32]).length.toNat ∧
    decode (s.reg .x2) = .ok .halt := by decide

theorem witness_CloneIsACopyByValue :
    let h := threeSlots 5#32 [6#32, 7#32]
    h.isLive 0#32 = true ∧ 1#32 ≠ 0#32 ∧ ∃ h', cloneIntoZero (fun _ => true) 1#32 h = .ok h' ∧
      (∃ h'', memWrite h' 1#32 0#32 9#32 = .ok h'') ∧ ∃ h'', memWrite h' 0#32 0#32 9#32 = .ok h'' :=
  ⟨by decide, by decide, _, rfl, ⟨_, rfl⟩, ⟨_, rfl⟩⟩

theorem witness_AllocationReusesTheLastAbandonedIdentifier :
    (∃ h', abandon 1#32 (threeSlots 5#32 []) = .ok h') ∧
    (load []).heap.free = [] ∧ (load []).heap.slots.length < 2 ^ 32 := ⟨⟨_, rfl⟩, by decide⟩

theorem witness_ResetMeetsTheInvariants : [0x70000000#32].length < 2 ^ 32 := by decide

theorem witness_StepKeepsMemoryCanonical :
    let s := slotState 0xC0000009#32 [0#32, 0x70000000#32] 0#32 1#32 0#32 0#32
    Memory.wf s.heap = true ∧ ∃ t, step s = .next t := ⟨by decide, _, rfl⟩

theorem witness_StepKeepsTheHeapInvariants :
    let s := slotState 0xC0000009#32 [0#32, 0x70000000#32] 0#32 1#32 0#32 0#32
    s.heap.Inv ∧ ∃ t, step s = .next t := ⟨threeSlots_inv _ _, _, rfl⟩

theorem witness_RunsKeepTheInvariants :
    (load [0xD0000041#32]).Inv ∧ ∃ t, Sys2Proof.core.run 1 (load [0xD0000041#32]) = .next t :=
  ⟨⟨by decide, load_inv _⟩, _, rfl⟩

theorem witness_RunsOnlyExtendTheOutput :
    ∃ t, Sys2Proof.core.run 1 (loadRegs [0xA0000000#32] 0x41#32 0#32 0#32 0#32) = .next t ∧ t.out = [0x41#8] :=
  ⟨_, rfl, rfl⟩

theorem witness_StatusPortShowsStatusAndRecord :
    (load []).status = .running ∧ ({ load [] with status := .halted } : State).status = .halted ∧
    ({ load [] with status := .faulted .divisionByZero 2#32 } : State).status = .faulted .divisionByZero 2#32 := by decide

/-- Both clauses, at the two ends of the condition's range. -/
theorem witness_ConditionalMoveMovesOnANonzeroWord :
    (loadRegs [] 0#32 0#32 0#32 0x80000000#32).reg .x3 ≠ 0#32 ∧ (load []).reg .x3 = 0#32 := by decide

theorem witness_DivisionIsTheUnsignedFloorQuotient :
    (loadRegs [] 0#32 0#32 0#32 1#32).reg .x3 ≠ 0#32 ∧ (load []).reg .x3 = 0#32 := by decide

theorem witness_OrthographyLoadsTheImmediate : (Instr.orthography .x3 0x1FFFFFF#32).wellFormed = true := by decide

/-- The three clauses: a dead identifier, the offset at the length, the last valid offset. -/
theorem witness_ArrayIndexLoadsTheAddressedWord :
    let s := slotState 5#32 [6#32, 7#32] 0#32 1#32 2#32 0#32
    s.heap.segment? (s.reg .x2) = none ∧ s.heap.segment? (s.reg .x1) = some (.ofWords [6#32, 7#32]) ∧
    (Segment.ofWords [6#32, 7#32]).length.toNat ≤ (s.reg .x2).toNat ∧
    (s.reg .x1).toNat < (Segment.ofWords [6#32, 7#32]).length.toNat := by decide

theorem witness_ArrayAmendmentStoresAtTheAddress :
    let s := slotState 5#32 [6#32, 7#32] 0#32 1#32 2#32 0#32
    Memory.wf s.heap = true ∧ s.address .x1 .x1 = (1#32, 1#32) ∧ s.address .x1 .x2 = (1#32, 2#32) ∧
    s.address .x2 .x0 = (2#32, 0#32) ∧ s.heap.segment? 2#32 = none ∧
    s.heap.segment? 1#32 = some (.ofWords [6#32, 7#32]) ∧
    (Segment.ofWords [6#32, 7#32]).length.toNat ≤ (2#32).toNat ∧
    (1#32).toNat < (Segment.ofWords [6#32, 7#32]).length.toNat := by decide

/-- The clauses of allocation: reuse, mint, refused storage. -/
theorem witness_AllocationGivesAFreshZeroedSegment :
    let s := slotState 5#32 [] 0#32 1#32 2#32 0#32
    let u := load []
    let v := { load [] with host := { vectorHost with storage := .exhausted } }
    (s.heap.Inv ∧ s.heapAdmits (s.reg .x1) = true ∧ s.heap.free ≠ []) ∧
    (u.heap.Inv ∧ u.heapAdmits (u.reg .x1) = true ∧ u.heap.free = [] ∧ u.heap.slots.length < 2 ^ 32) ∧
    v.heapAdmits (v.reg .x1) = false :=
  ⟨⟨threeSlots_inv _ _, by decide, by decide⟩, ⟨load_inv _, by decide, by decide, by simp [load, State.resetWith]⟩,
    by decide⟩

/-- A heap with `n` live empty segments. -/
def fullTable (n : Nat) : Heap := { slots := List.replicate n (.live (.zeros 0#32)), free := [] }

@[simp] theorem fullTable_length (n : Nat) : (fullTable n).slots.length = n := by simp [fullTable]

theorem fullTable_inv {n : Nat} (h0 : 0 < n) (hn : n ≤ 2 ^ 32) : (fullTable n).Inv := by
  refine ⟨by simpa using hn, ?_, List.nodup_nil, fun id hid => (List.not_mem_nil hid).elim, fun k _ hd => ?_⟩
  · simp [fullTable, Heap.isLive, Heap.segment?, h0]
  · simp [fullTable, List.getElem?_replicate] at hd

/-- The two table sizes at the identifiers' end: one identifier left, and none. -/
theorem witness_allocation_at_the_identifiers_end (host : HostSide) (hs : host.storage = .unlimited) :
    (∃ s : State, s.heap.Inv ∧ s.heapAdmits (s.reg .x1) = true ∧ s.heap.slots.length = 2 ^ 32 - 1) ∧
    ∃ s : State, s.heap.free = [] ∧ s.heap.slots.length = 2 ^ 32 :=
  ⟨⟨{ State.reset with heap := fullTable (2 ^ 32 - 1), host := host }, fullTable_inv (by omega) (by omega),
      by simp [State.heapAdmits, hs], fullTable_length _⟩,
    ⟨{ State.reset with heap := fullTable (2 ^ 32) }, rfl, fullTable_length _⟩⟩

/-- The clauses of abandonment: identifier 0, a dead one, a live one. -/
theorem witness_AbandonmentMakesTheIdentifierDead :
    let s := slotState 5#32 [] 0#32 1#32 2#32 0#32
    s.reg .x0 = 0#32 ∧ (s.reg .x2 ≠ 0#32 ∧ s.heap.isLive (s.reg .x2) = false) ∧
    (s.reg .x1 ≠ 0#32 ∧ s.heap.isLive (s.reg .x1) = true) := by decide

theorem witness_HaltEndsTheRun :
    0x70000000 ≤ (0x70000000#32).toNat ∧ (0x70000000#32).toNat ≤ 0x7FFFFFFF ∧
    0x70000000 ≤ (0x7FFFFFFF#32).toNat ∧ (0x7FFFFFFF#32).toNat ≤ 0x7FFFFFFF := by decide

/-- The clauses of load_program: a jump, a dead source, a refused clone, a clone. -/
theorem witness_LoadProgramJumpsOrClonesAndJumps :
    let s := slotState 5#32 [6#32] 0#32 1#32 2#32 0#32
    let v := { s with host := { vectorHost with storage := .exhausted } }
    s.reg .x0 = 0#32 ∧ (s.reg .x2 ≠ 0#32 ∧ s.heap.segment? (s.reg .x2) = none) ∧
    (v.reg .x1 ≠ 0#32 ∧ v.heap.segment? (v.reg .x1) = some (.ofWords [6#32]) ∧
      v.heapAdmits (Segment.ofWords [6#32]).length = false) ∧
    (s.reg .x1 ≠ 0#32 ∧ s.heap.isLive 0#32 = true ∧ s.heap.segment? (s.reg .x1) = some (.ofWords [6#32]) ∧
      s.heapAdmits (Segment.ofWords [6#32]).length = true) := by decide

/-- And its last clause: a jump to the offset at segment 0's length. -/
theorem witness_load_program_to_a_bad_target :
    let s := loadRegs [0xC0000001#32] 0#32 1#32 0#32 0#32
    ∃ t, exec (.loadProgram .x0 .x1) s = .next t ∧ t.status = .running ∧
      t.heap.segment? 0#32 = some (.ofWords [0xC0000001#32]) ∧
      (Segment.ofWords [0xC0000001#32]).length.toNat ≤ (s.reg .x1).toNat := ⟨_, rfl, rfl, rfl, by decide⟩

theorem witness_ConditionalBranchIdiomWorks :
    Reg.x0 ≠ Reg.x1 ∧ (loadRegs [] 0#32 8#32 6#32 1#32).reg .x0 = 0#32 ∧
    (loadRegs [] 0#32 8#32 6#32 1#32).reg .x3 ≠ 0#32 ∧ (loadRegs [] 0#32 8#32 6#32 0#32).reg .x3 = 0#32 := by decide

/-- The clauses of output: 256, 255 accepted, 0 refused. -/
theorem witness_OutputEmitsAByteInRange :
    let s := loadRegs [] 0#32 255#32 256#32 0#32
    let v := { s with host := { vectorHost with byteSink := .refusing } }
    255 < (s.reg .x2).toNat ∧ ((255#8).toNat = (s.reg .x1).toNat ∧ s.outputAnswer 255#8 = .ok) ∧
    ((0#8).toNat = (v.reg .x0).toNat ∧ v.outputAnswer 0#8 = .ioError) := by decide

theorem witness_InputDeliversTheHostsAnswer :
    (hostAnswersInput (.byte 0xFF#8) (load [])).host.inputs = .byte 0xFF#8 :: [] ∧
    (hostAnswersInput .endOfInput (load [])).host.inputs = .endOfInput :: [] ∧
    (hostAnswersInput .ioError (load [])).host.inputs = .ioError :: [] := by decide

theorem witness_InputHoldsUntilTheHostAnswers :
    (load [0xB0000001#32]).status = .running ∧ Fetches (load [0xB0000001#32]) (.input .x1) ∧
    (load [0xB0000001#32]).host.inputs = [] := ⟨rfl, ⟨0xB0000001#32, by decide, by decide⟩, rfl⟩

/-- The two ends of the opcode's range of words, the last one fetched. -/
theorem witness_OrthographyWordLoadsItsImmediate :
    (0xD0000000 ≤ (0xD0000000#32).toNat ∧ Reg.x0.index.toNat = (0xD0000000#32).toNat / 2 ^ 25 % 2 ^ 3) ∧
    ((0xDFFFFFFF#32).toNat ≤ 0xDFFFFFFF ∧ Reg.x7.index.toNat = (0xDFFFFFFF#32).toNat / 2 ^ 25 % 2 ^ 3) ∧
    (load [0xDFFFFFFF#32]).status = .running ∧
    codeFetch (load [0xDFFFFFFF#32]).heap (load [0xDFFFFFFF#32]).pc = .ok 0xDFFFFFFF#32 := by decide

end Sys2Proof.Tests
end

/-! Family 10_state: what a step does to status, finger, registers, output stream and heap, the heap invariants along a run,
and the status port. -/

namespace Sys2Proof.Machine

/-! ### The fetch and the step -/

/-- A successful fetch found its word below the length of segment 0. -/
theorem codeFetch_eq_ok {h : Heap} {i w : Word} (hf : codeFetch h i = .ok w) :
    ∃ g, h.segment? 0#32 = some g ∧ i.toNat < g.length.toNat ∧ g.read i.toNat = w := by
  cases hg : h.segment? 0#32 with
  | none => simp [codeFetch, hg] at hf
  | some g =>
    rw [codeFetch_live hg] at hf
    split at hf <;> cases hf
    exact ⟨g, rfl, ‹_›, rfl⟩

/-- A state fetches at most one instruction. -/
theorem Fetches.unique {s : State} {i j : Instr} (hi : Fetches s i) (hj : Fetches s j) : i = j := by
  obtain ⟨w, hw, hdi⟩ := hi
  obtain ⟨v, hv, hdj⟩ := hj
  cases hw.symm.trans hv
  cases hdi.symm.trans hdj
  rfl

/-- Everything a step can do: it fetches an instruction and has one of that instruction's effects, or it fetches none and
takes the fetch's or the decoder's fault. -/
theorem step_effect {s t : State} (h : step s = .next t) :
    (∃ i, Fetches s i ∧ Effect i s t) ∨
    ((∀ i, ¬ Fetches s i) ∧ (t = raiseFault .fetchOutOfBounds s.pc s ∨ t = takeFault .undefinedOpcode s)) := by
  obtain ⟨-, ⟨hf, ht⟩ | ⟨w, e, hf, hd, ht⟩ | ⟨w, i, hf, hd, he⟩⟩ := step_next_cases h
  · exact .inr ⟨fun i ⟨w, hw, _⟩ => (by cases hf.symm.trans hw), .inl ht⟩
  · refine .inr ⟨fun i ⟨v, hv, hdi⟩ => ?_, .inr ht⟩
    cases hf.symm.trans hv
    cases hd.symm.trans hdi
  · exact .inl ⟨i, ⟨w, hf, hd⟩, exec_effect he⟩

/-! ### Status -/

/-- The effect of `halt` is HALTED; any other instruction keeps the status or faults with its own offset. -/
theorem Effect.status_cases {i : Instr} {s t : State} (h : Effect i s t) :
    (i = .halt ∧ t.status = .halted) ∨
    (i ≠ .halt ∧ (t.status = s.status ∨ ∃ k, t.status = .faulted k s.pc)) := by
  cases h with
  | fault k hk hne => exact .inr ⟨by rintro rfl; simp [Instr.faultKinds] at hk, .inr ⟨k, rfl⟩⟩
  | ioError as hk ha => exact .inr ⟨by rintro rfl; simp [Instr.faultKinds] at hk, .inr ⟨.ioError, rfl⟩⟩
  | halted hi => exact .inl ⟨hi, rfl⟩
  | _ => exact .inr ⟨by simp [*], .inl rfl⟩

/-- Settles O13: by the status of each effect; a fault of the fetch or the decoder fetches no `halt`. -/
theorem statusChangesOnlyByHaltOrFault : Obligations.StatusChangesOnlyByHaltOrFault := by
  intro s t h
  have hrun := (step_next_cases h).1
  refine ⟨hrun, ?_⟩
  obtain ⟨i, hf, he⟩ | ⟨hno, ht⟩ := step_effect h
  · have hhalt : Fetches s .halt ↔ i = .halt := ⟨hf.unique, fun hi => hi ▸ hf⟩
    rw [hhalt]
    obtain ⟨hi, hst⟩ | ⟨hi, hst | ⟨k, hst⟩⟩ := he.status_cases
    · simp [hi, hst]
    · simp [hi, hst, hrun]
    · simp [hi, hst, eq_comm]
  · rcases ht with rfl | rfl <;> simp [hno, eq_comm]

/-! ### Finger -/

/-- Settles O14: by the finger of each effect. -/
theorem onlyLoadProgramMovesTheFingerElsewhere : Obligations.OnlyLoadProgramMovesTheFingerElsewhere := by
  intro i s t h
  cases exec_effect h with
  | held c hi hn => exact .inr (.inr ⟨c, hi, hn, rfl⟩)
  | jumped b c hi hb => exact .inr (.inl ⟨b, c, hi, rfl⟩)
  | cloned b c h hi hb ho => exact .inr (.inl ⟨b, c, hi, rfl⟩)
  | _ => exact .inl rfl

/-- Settles O15: a fetched offset is below a length, and a length is below 2^32. -/
theorem fingerIncrementNeverWraps : Obligations.FingerIncrementNeverWraps := by
  intro s w hf
  obtain ⟨g, -, hlt, -⟩ := codeFetch_eq_ok hf
  have hlen := g.length.isLt
  exact BitVec.toNat_add_of_lt (by simp only [BitVec.toNat_ofNat]; omega)

/-! ### Registers -/

/-- Settles O16: the effects that write a register write the destination. -/
theorem noInstructionWritesASecondRegister : Obligations.NoInstructionWritesASecondRegister := by
  intro i s t h r hr
  cases exec_effect h with
  | register d v hd hh hhalt ha => exact setReg_reg_other _ _ _ _ (by rintro rfl; exact hr hd)
  | allocated b c x hi ho => exact setReg_reg_other _ _ _ _ (by rintro rfl; exact hr (by rw [hi]; rfl))
  | received c a as v hi hn => exact setReg_reg_other _ _ _ _ (by rintro rfl; exact hr (by rw [hi]; rfl))
  | _ => rfl

/-! ### Output stream -/

/-- The byte on the output port is the value itself when that is in range (45_io.md R190). -/
theorem lowByte_toNat {v : Word} (h : v.toNat ≤ 255) : (lowByte v).toNat = v.toNat := by
  simp only [lowByte, BitVec.extractLsb'_toNat, Nat.shiftRight_zero]
  omega

/-- Settles O18: `emitted` is the one effect on the output stream. -/
theorem outputStreamOnlyGrowsByOutput : Obligations.OutputStreamOnlyGrowsByOutput := by
  intro s t h
  obtain ⟨i, hf, he⟩ | ⟨-, rfl | rfl⟩ := step_effect h
  · cases he with
    | emitted c hi hr => exact .inr ⟨c, _, hi ▸ hf, lowByte_toNat hr, rfl⟩
    | _ => exact .inl rfl
  · exact .inl rfl
  · exact .inl rfl

/-! ### Heap -/

/-- What a step from `s` can make of the heap: nothing, or what the operation of the one instruction it fetched makes of it. -/
inductive HeapChange (s : State) (h : Heap) : Prop where
  | kept (hk : h = s.heap)
  | stored (a b c : Reg) (hf : Fetches s (.arrayAmendment a b c))
      (ho : memWrite s.heap (s.reg a) (s.reg b) (s.reg c) = .ok h)
  | allocated (b c : Reg) (id : Word) (hf : Fetches s (.allocation b c))
      (ho : allocate (s.heapAdmits (s.reg c)) (s.reg c) s.heap = .ok (id, h))
  | abandoned (c : Reg) (hf : Fetches s (.abandonment c)) (ho : abandon (s.reg c) s.heap = .ok h)
  | cloned (b c : Reg) (hf : Fetches s (.loadProgram b c)) (hb : s.reg b ≠ 0#32)
      (ho : cloneIntoZero s.heapAdmits (s.reg b) s.heap = .ok h)

/-- The heap after a step is one of the heap changes. -/
theorem step_heapChange {s t : State} (h : step s = .next t) : HeapChange s t.heap := by
  obtain ⟨i, hf, he⟩ | ⟨-, rfl | rfl⟩ := step_effect h
  · cases he with
    | store a b c h hi ho => exact .stored a b c (hi ▸ hf) ho
    | allocated b c r hi ho => exact .allocated b c r.1 (hi ▸ hf) ho
    | abandoned c h hi ho => exact .abandoned c (hi ▸ hf) ho
    | cloned b c h hi hb ho => exact .cloned b c (hi ▸ hf) hb ho
    | _ => exact .kept rfl
  · exact .kept rfl
  · exact .kept rfl

/-- Settles O32: every heap operation keeps the canonical form. -/
theorem stepKeepsMemoryCanonical : Obligations.StepKeepsMemoryCanonical := by
  intro s t hw h
  cases step_heapChange h with
  | kept hk => exact hk ▸ hw
  | stored a b c hf ho => exact memWrite_keeps_wf hw ho
  | allocated b c id hf ho => exact allocate_keeps_wf hw ho
  | abandoned c hf ho => exact abandon_keeps_wf hw ho
  | cloned b c hf hb ho => exact cloneIntoZero_keeps_wf hw ho

/-- Settles O33: every heap operation keeps the heap invariants. -/
theorem stepKeepsTheHeapInvariants : Obligations.StepKeepsTheHeapInvariants := by
  intro s t hi h
  cases step_heapChange h with
  | kept hk => exact hk ▸ hi
  | stored a b c hf ho => exact memWrite_keeps_Inv hi ho
  | allocated b c id hf ho => exact allocate_keeps_Inv hi ho
  | abandoned c hf ho => exact abandon_keeps_Inv hi ho
  | cloned b c hf hb ho => exact cloneIntoZero_keeps_Inv hi ho

/-! ### The length of the segment table -/

@[simp] theorem Heap.setSlot_slots_length (h : Heap) (id : Word) (x : Slot) :
    (h.setSlot id x).slots.length = h.slots.length := List.length_set

theorem memWrite_slots_length {h h' : Heap} {id i v : Word} (ho : memWrite h id i v = .ok h') :
    h'.slots.length = h.slots.length := by
  rcases memWrite_cases h id i v with ⟨-, he⟩ | ⟨g, -, ⟨-, he⟩ | ⟨-, he⟩⟩ <;> rw [he] at ho <;> cases ho
  exact h.setSlot_slots_length _ _

theorem abandon_slots_length {h h' : Heap} {id : Word} (ho : abandon id h = .ok h') :
    h'.slots.length = h.slots.length := by
  rcases abandon_cases id h with ⟨-, he⟩ | ⟨-, -, he⟩ | ⟨-, -, he⟩ <;> rw [he] at ho <;> cases ho
  exact List.length_set

theorem cloneIntoZero_slots_length {admits : Word → Bool} {id : Word} {h h' : Heap}
    (ho : cloneIntoZero admits id h = .ok h') : h'.slots.length = h.slots.length := by
  rcases cloneIntoZero_cases admits id h with ⟨-, he⟩ | ⟨g, -, ⟨-, he⟩ | ⟨-, he⟩⟩ <;> rw [he] at ho <;> cases ho
  exact h.setSlot_slots_length _ _

/-- An allocation reuses a slot, or mints one when none is free. -/
theorem allocate_slots_length {admits : Bool} {n : Word} {h : Heap} {r : Word × Heap}
    (ho : allocate admits n h = .ok r) :
    r.2.slots.length = h.slots.length ∨ (r.2.slots.length = h.slots.length + 1 ∧ h.free = []) := by
  rcases allocate_cases admits n h with ⟨-, he⟩ | ⟨id, rest, -, -, he⟩ | ⟨-, hf, -, he⟩ | ⟨-, -, -, he⟩ <;>
    rw [he] at ho <;> cases ho
  · exact .inl List.length_set
  · exact .inr ⟨List.length_append, hf⟩

/-- Settles O19: only an allocation changes the length of the table, and only by minting. -/
theorem segmentTableNeverShrinks : Obligations.SegmentTableNeverShrinks := by
  intro s t h
  cases step_heapChange h with
  | kept hk => exact .inl (by rw [hk])
  | stored a b c hf ho => exact .inl (memWrite_slots_length ho)
  | allocated b c id hf ho =>
    obtain hsame | ⟨hmint, hfree⟩ := allocate_slots_length ho
    · exact .inl hsame
    · exact .inr ⟨hmint, hfree, b, c, hf⟩
  | abandoned c hf ho => exact .inl (abandon_slots_length ho)
  | cloned b c hf hb ho => exact .inl (cloneIntoZero_slots_length ho)

/-! ### What each heap operation does to the segment of an identifier -/

/-- A store keeps every segment's length. -/
theorem memWrite_segment_length {h h' : Heap} {id i v id' : Word} {g g' : Segment} (ho : memWrite h id i v = .ok h')
    (hg : h.segment? id' = some g) (hg' : h'.segment? id' = some g') : g'.length = g.length := by
  rcases memWrite_cases h id i v with ⟨-, he⟩ | ⟨g₀, hg₀, ⟨-, he⟩ | ⟨-, he⟩⟩ <;> rw [he] at ho <;> cases ho
  rw [segment?_setSlot] at hg'
  split at hg'
  · next hid =>
    cases hg'
    cases (hid.1 ▸ hg).symm.trans hg₀
    exact Segment.write_length _ _ _
  · cases hg.symm.trans hg'
    rfl

/-- An allocation keeps every live segment: its identifier was free or did not exist. -/
theorem allocate_keeps_segment {admits : Bool} {n : Word} {h : Heap} {r : Word × Heap} {id : Word} {g : Segment}
    (hi : h.Inv) (ho : allocate admits n h = .ok r) (hg : h.segment? id = some g) : r.2.segment? id = some g := by
  rcases allocate_cases admits n h with ⟨-, he⟩ | ⟨top, rest, -, hf, he⟩ | ⟨-, -, -, he⟩ | ⟨-, -, -, he⟩ <;>
    rw [he] at ho <;> cases ho
  · have hne : id.toNat ≠ top.toNat := fun heq => by
      have hdead : h.isLive top = false := hi.not_live_of_free (by simp [hf])
      rw [← BitVec.eq_of_toNat_eq heq, isLive_iff.mpr ⟨g, hg⟩] at hdead
      cases hdead
    rw [segment?_set h.slots rest h.free, if_neg (fun hc => hne hc.1)]
    exact hg
  · rw [segment?_eq_some, List.getElem?_append_left (lt_slots_of_segment? hg)]
    exact segment?_eq_some.mp hg

/-- What is live after an abandonment was the same segment before. -/
theorem segment?_of_abandon {h h' : Heap} {id id' : Word} {g : Segment} (ho : abandon id h = .ok h')
    (hg : h'.segment? id' = some g) : h.segment? id' = some g := by
  rcases abandon_cases id h with ⟨-, he⟩ | ⟨-, -, he⟩ | ⟨-, -, he⟩ <;> rw [he] at ho <;> cases ho
  rw [segment?_set h.slots _ h.free] at hg
  split at hg
  · cases hg
  · exact hg

/-- A clone leaves every segment but segment 0 alone. -/
theorem cloneIntoZero_segment_other {admits : Word → Bool} {id id' : Word} {h h' : Heap}
    (ho : cloneIntoZero admits id h = .ok h') (hne : id' ≠ 0#32) : h'.segment? id' = h.segment? id' := by
  rcases cloneIntoZero_cases admits id h with ⟨-, he⟩ | ⟨g, -, ⟨-, he⟩ | ⟨-, he⟩⟩ <;> rw [he] at ho <;> cases ho
  rw [segment?_setSlot, if_neg (fun hc => hne hc.1)]

/-- Settles O20: only a clone gives a live identifier a segment of another length, and only to segment 0. -/
theorem segmentLengthsAreFixed : Obligations.SegmentLengthsAreFixed := by
  intro s t id g g' hi h hg hg'
  have hsame : t.heap.segment? id = s.heap.segment? id → g'.length = g.length := fun heq => by
    cases hg.symm.trans (heq.symm.trans hg')
    rfl
  cases step_heapChange h with
  | kept hk => exact .inl (hsame (by rw [hk]))
  | stored a b c hf ho => exact .inl (memWrite_segment_length ho hg hg')
  | allocated b c id' hf ho => exact .inl (hsame ((allocate_keeps_segment hi ho hg).trans hg.symm))
  | abandoned c hf ho => exact .inl (hsame (hg'.trans (segment?_of_abandon ho hg').symm))
  | cloned b c hf hb ho =>
    by_cases h0 : id = 0#32
    · exact .inr ⟨h0, b, c, hf, hb⟩
    · exact .inl (hsame (cloneIntoZero_segment_other ho h0))

/-! ### Reset and runs -/

/-- Reset leaves one slot, which is live, and an empty free list. -/
theorem resetWith_heap_Inv (image : List Word) (host : HostSide) : (State.resetWith image host).heap.Inv := by
  refine ⟨by simp [State.resetWith], rfl, List.nodup_nil, fun id hid => (List.not_mem_nil hid).elim, fun k hk hd => ?_⟩
  obtain rfl : k = 0 := by simpa [State.resetWith] using hk
  cases hd

/-- Settles O31: the image's segment is canonical, and it is the only slot. -/
theorem resetMeetsTheInvariants : Obligations.ResetMeetsTheInvariants :=
  have hall : ∀ (image : List Word) (host : HostSide), image.length < 2 ^ 32 → (State.resetWith image host).Inv :=
    fun image host hlen => ⟨reset_memory_wf host hlen, resetWith_heap_Inv image host⟩
  ⟨hall, hall [] .unknown (by decide)⟩

@[simp] theorem core_step (s : State) : Sys2Proof.core.step s = step s := rfl

/-- A run of `n + 1` steps is a step and a run of `n` steps. -/
theorem run_succ {n : Nat} {s t : State} (h : Sys2Proof.core.run (n + 1) s = .next t) :
    ∃ u, step s = .next u ∧ Sys2Proof.core.run n u = .next t := by
  cases hs : step s with
  | next u => exact ⟨u, rfl, by simpa only [Host.Core.run, core_step, hs] using h⟩
  | fault r => simp only [Host.Core.run, core_step, hs] at h; cases h
  | refused r => simp only [Host.Core.run, core_step, hs] at h; cases h

/-- What every step keeps, every run keeps. -/
theorem run_keeps {P : State → Prop} (hstep : ∀ {s t}, P s → step s = .next t → P t) {n : Nat} {s t : State}
    (hs : P s) (h : Sys2Proof.core.run n s = .next t) : P t := by
  induction n generalizing s with
  | zero => cases h; exact hs
  | succ n ih =>
    obtain ⟨u, hu, hrun⟩ := run_succ h
    exact ih (hstep hs hu) hrun

/-- Every step keeps the canonical form and the heap invariants. -/
theorem step_keeps_Inv {s t : State} (hi : s.Inv) (h : step s = .next t) : t.Inv := by
  obtain ⟨hw, hheap⟩ := hi
  exact ⟨stepKeepsMemoryCanonical s t hw h, stepKeepsTheHeapInvariants s t hheap h⟩

/-- Settles O34, by induction on the number of steps. -/
theorem runsKeepTheInvariants : Obligations.RunsKeepTheInvariants :=
  fun _ _ _ hi h => run_keeps step_keeps_Inv hi h

/-- A step leaves the output stream in place at the front of the next one. -/
theorem step_out_prefix {s t : State} (h : step s = .next t) : s.out <+: t.out := by
  obtain ho | ⟨c, b, -, -, ho⟩ := outputStreamOnlyGrowsByOutput s t h
  · rw [ho]
  · exact ⟨[b], ho.symm⟩

/-- Settles O35, by induction on the number of steps. -/
theorem runsOnlyExtendTheOutput : Obligations.RunsOnlyExtendTheOutput := by
  intro n s t h
  obtain ⟨later, hl⟩ := run_keeps (P := fun u => s.out <+: u.out) (fun hp hu => hp.trans (step_out_prefix hu))
    (List.prefix_refl s.out) h
  exact ⟨later, hl.symm⟩

/-! ### The status port -/

/-- The fault kind that a code of 60_exceptions.md R201 stands for. -/
def FaultKind.ofCode (c : BitVec 4) : Option FaultKind :=
  match c.toNat with
  | 1 => some .divisionByZero
  | 2 => some .segmentIndexOutOfBounds
  | 3 => some .deadSegment
  | 4 => some .abandonSegmentZero
  | 5 => some .outputOutOfRange
  | 6 => some .undefinedOpcode
  | 7 => some .fetchOutOfBounds
  | 8 => some .allocationFailure
  | 9 => some .ioError
  | _ => none

/-- A fault kind is read back from its code. -/
@[simp] theorem FaultKind.ofCode_code (k : FaultKind) : ofCode k.code = some k := by
  cases k <;> rfl

theorem FaultKind.code_injective {k k' : FaultKind} (h : k.code = k'.code) : k = k' :=
  Option.some.inj (by rw [← ofCode_code k, h, ofCode_code])

theorem FaultKind.code_range (k : FaultKind) : 1 ≤ k.code.toNat ∧ k.code.toNat ≤ 9 := by
  cases k <;> decide

/-- Settles O36: the port and the received output by the status, and the codes read back. -/
theorem statusPortShowsStatusAndRecord : Obligations.StatusPortShowsStatusAndRecord := by
  refine ⟨fun s hs => ?_, fun s hs => ?_, fun s k o hs => ?_, FaultKind.code_range,
    fun _ _ => FaultKind.code_injective⟩
  all_goals simp only [statusPort, receivedOutput, hs, Status.code, and_self]

end Sys2Proof.Machine

/-! Family 20_memory: stores and fetches as reads and writes of one segment, which instructions touch memory, and the byte
order of the image. -/

namespace Sys2Proof.Machine

/-! ### The code fetch as a read of segment 0 -/

/-- A code fetch depends on segment 0, and on nothing else. -/
theorem codeFetch_congr {h h' : Heap} (hs : h.segment? 0#32 = h'.segment? 0#32) (i : Word) :
    codeFetch h i = codeFetch h' i := by
  simp only [codeFetch, hs]

/-- A code fetch and a read of segment 0 succeed together and answer the same word, whether segment 0 is live or not. -/
theorem codeFetch_ok_iff_memRead {h : Heap} {i w : Word} : codeFetch h i = .ok w ↔ memRead h 0#32 i = .ok w := by
  cases hg : h.segment? 0#32 with
  | none => simp [codeFetch, memRead, hg]
  | some g =>
    rw [codeFetch_live hg, memRead_live hg]
    by_cases hi : i.toNat < g.length.toNat <;> simp [hi]

/-- Settles O10: with segment 0 live both accesses make the one test of the offset against its length. -/
theorem codeFetchIsAReadOfSegmentZero : Obligations.CodeFetchIsAReadOfSegmentZero := by
  intro h i hlive
  obtain ⟨g, hg⟩ := isLive_iff.mp hlive
  refine ⟨fun w => codeFetch_ok_iff_memRead, ?_⟩
  rw [codeFetch_live hg, memRead_live hg]
  by_cases hi : i.toNat < g.length.toNat <;> simp [hi]

/-- A running machine whose fetched word decodes to `i` executes `i`. -/
theorem step_of_fetches {s : State} {i : Instr} (hrun : s.status = .running) (hf : Fetches s i) : step s = exec i s := by
  obtain ⟨w, hw, hd⟩ := hf
  simp only [step_running hrun, runOne, hw, hd]

/-! ### The store -/

theorem memWrite_dead {h : Heap} {id i v : Word} (hid : h.segment? id = none) :
    memWrite h id i v = .error .deadSegment := by
  simp [memWrite, hid]

theorem memWrite_live {h : Heap} {id i v : Word} {g : Segment} (hid : h.segment? id = some g) :
    memWrite h id i v =
      if i.toNat < g.length.toNat then .ok (h.setSlot id (.live (g.write i.toNat v)))
      else .error .segmentIndexOutOfBounds := by
  simp [memWrite, hid]

/-- A store below the length of a live segment goes through. -/
theorem exists_memWrite_of_lt {h : Heap} {id i : Word} {g : Segment} (hid : h.segment? id = some g)
    (hi : i.toNat < g.length.toNat) (v : Word) : ∃ h', memWrite h id i v = .ok h' :=
  ⟨_, (memWrite_live hid).trans (if_pos hi)⟩

/-- A store that goes through replaces its own segment, below whose length it writes. -/
theorem memWrite_segment_same {h h' : Heap} {id i v : Word} (ho : memWrite h id i v = .ok h') :
    ∃ g, h.segment? id = some g ∧ i.toNat < g.length.toNat ∧ h'.segment? id = some (g.write i.toNat v) := by
  rcases memWrite_cases h id i v with ⟨-, he⟩ | ⟨g, hg, ⟨-, he⟩ | ⟨hi, he⟩⟩ <;> rw [he] at ho <;> cases ho
  exact ⟨g, hg, hi, by rw [segment?_setSlot, if_pos ⟨rfl, lt_slots_of_segment? hg⟩]⟩

/-- A store leaves every other segment alone. -/
theorem memWrite_segment_other {h h' : Heap} {id i v id' : Word} (ho : memWrite h id i v = .ok h') (hne : id' ≠ id) :
    h'.segment? id' = h.segment? id' := by
  rcases memWrite_cases h id i v with ⟨-, he⟩ | ⟨g, hg, ⟨-, he⟩ | ⟨-, he⟩⟩ <;> rw [he] at ho <;> cases ho
  rw [segment?_setSlot, if_neg (fun hc => hne hc.1)]

/-- Read after write: the word stored at its own address, and what was there before at every other. -/
theorem memRead_memWrite {h h' : Heap} {id i v : Word} (hw : Memory.wf h = true) (ho : memWrite h id i v = .ok h')
    (id' i' : Word) : memRead h' id' i' = if (id', i') = (id, i) then .ok v else memRead h id' i' := by
  obtain ⟨g, hg, hi, hg'⟩ := memWrite_segment_same ho
  by_cases hid : id' = id
  · subst hid
    rw [memRead_live hg', memRead_live hg, Segment.write_length, Segment.read_write _ _ _ _ (canonical_of_segment? hw hg)]
    by_cases hii : i' = i
    · simp [hii, hi]
    · have hn : i'.toNat ≠ i.toNat := fun heq => hii (BitVec.eq_of_toNat_eq heq)
      simp [hii, hn]
  · rw [if_neg (fun hc => hid (Prod.mk.inj hc).1)]
    exact memRead_congr (memWrite_segment_other ho hid) i'

/-- Settles O27: the fault of each test, and read after write where both are passed. -/
theorem storeThenLoadReturnsTheValue : Obligations.StoreThenLoadReturnsTheValue := by
  intro h id i v hw
  refine ⟨memWrite_dead, fun g hg hge => ?_, fun g hg hlt => ?_⟩
  · rw [memWrite_live hg, if_neg (Nat.not_lt.mpr hge)]
  · obtain ⟨h', ho⟩ := exists_memWrite_of_lt hg hlt v
    refine ⟨h', ho, ?_, fun id' i' hne => ?_⟩
    · rw [memRead_memWrite hw ho, if_pos rfl]
    · rw [memRead_memWrite hw ho, if_neg hne]

/-- array_amendment whose store goes through (43_array.md R161). -/
theorem exec_arrayAmendment_of_memWrite {a b c : Reg} {s : State} {h : Heap}
    (ho : memWrite s.heap (s.reg a) (s.reg b) (s.reg c) = .ok h) :
    exec (.arrayAmendment a b c) s = .next (s.advance.setHeap h) := by
  simp only [exec, execArrayAmendment, State.address, ho, Except.map, conclude_ok]

/-- Settles O28: the store's own address is where the advanced finger fetches, and a fetch is a read of segment 0. -/
theorem storeToTheNextOffsetIsExecutedNext : Obligations.StoreToTheNextOffsetIsExecutedNext := by
  intro a b c s g i hw hrun ha hg hb hlt hd
  obtain ⟨h', ho⟩ := exists_memWrite_of_lt (ha ▸ hg) hlt (s.reg c)
  have hf : codeFetch h' (s.pc + 1#32) = .ok (s.reg c) := by
    rw [codeFetch_ok_iff_memRead, memRead_memWrite hw ho, if_pos (by rw [ha, hb])]
  exact ⟨_, exec_arrayAmendment_of_memWrite ho, hf, step_of_fetches hrun ⟨_, hf, hd⟩⟩

/-! ### The clone -/

/-- A clone that goes through gives segment 0, when that is live, the source's segment. -/
theorem cloneIntoZero_segment_zero {admits : Word → Bool} {id : Word} {h h' : Heap} (hlive : h.isLive 0#32 = true)
    (ho : cloneIntoZero admits id h = .ok h') : h'.segment? 0#32 = h.segment? id := by
  obtain ⟨g₀, hg₀⟩ := isLive_iff.mp hlive
  rcases cloneIntoZero_cases admits id h with ⟨-, he⟩ | ⟨g, hg, ⟨-, he⟩ | ⟨-, he⟩⟩ <;> rw [he] at ho <;> cases ho
  rw [segment?_setSlot, if_pos ⟨rfl, lt_slots_of_segment? hg₀⟩, hg]

/-- Settles O29: after the clone segment 0 and the source are equal segments in two slots, and a store changes one slot. -/
theorem cloneIsACopyByValue : Obligations.CloneIsACopyByValue := by
  intro admits id h h' hlive hne ho
  have hzero : h'.segment? 0#32 = h.segment? id := cloneIntoZero_segment_zero hlive ho
  have hsource : h'.segment? id = h.segment? id := cloneIntoZero_segment_other ho hne
  refine ⟨fun i => ⟨memRead_congr hzero i, memRead_congr hsource i⟩, fun i w => ?_, fun i v h'' hs j => ?_,
    fun i v h'' hs j => memRead_congr (memWrite_segment_other hs hne) j⟩
  · rw [codeFetch_ok_iff_memRead, memRead_congr hzero]
  · have hkept := memWrite_segment_other hs hne.symm
    exact ⟨memRead_congr hkept j, codeFetch_congr hkept j⟩

/-! ### Which instructions change memory -/

/-- An unchanged heap reads the same everywhere. -/
theorem keepsMemory_of_heap_eq {s t : State} (h : t.heap = s.heap) : KeepsMemory s t :=
  ⟨h, fun _ _ => by rw [h]⟩

/-- Settles O17: the effects that set the heap are those of the four instructions that change memory. -/
theorem otherInstructionsLeaveMemoryAlone : Obligations.OtherInstructionsLeaveMemoryAlone := by
  intro i s t hno h
  apply keepsMemory_of_heap_eq
  cases exec_effect h with
  | store _ _ _ _ hi | allocated _ _ _ hi | abandoned _ _ hi | cloned _ _ _ hi => subst hi; cases hno
  | _ => rfl

theorem Heap.Inv.segment_zero {h : Heap} (hi : h.Inv) : ∃ g, h.segment? 0#32 = some g := by
  obtain ⟨-, hlive, -⟩ := hi
  exact isLive_iff.mp hlive

/-- An abandonment leaves segment 0 alone: it refuses identifier 0. -/
theorem abandon_keeps_segment_zero {id : Word} {h h' : Heap} (ho : abandon id h = .ok h') :
    h'.segment? 0#32 = h.segment? 0#32 := by
  rcases abandon_cases id h with ⟨-, he⟩ | ⟨-, -, he⟩ | ⟨hne, -, he⟩ <;> rw [he] at ho <;> cases ho
  rw [segment?_set h.slots _ h.free, if_neg (fun hc => hne (BitVec.eq_of_toNat_eq hc.1).symm)]

/-- Settles O21: segment 0 is live, so no allocation and no abandonment reaches its slot, and a store elsewhere does not. -/
theorem segmentZeroChangesOnlyByCloneOrStore : Obligations.SegmentZeroChangesOnlyByCloneOrStore := by
  intro s t hi h
  have hsame : t.heap.segment? 0#32 = s.heap.segment? 0#32 →
      ∀ i, memRead t.heap 0#32 i = memRead s.heap 0#32 i := memRead_congr
  cases step_heapChange h with
  | kept hk => exact .inl (hsame (by rw [hk]))
  | stored a b c hf ho =>
    by_cases ha : s.reg a = 0#32
    · exact .inr (.inr ⟨a, b, c, hf, ha⟩)
    · exact .inl (hsame (memWrite_segment_other ho (Ne.symm ha)))
  | allocated b c id hf ho =>
    obtain ⟨g, hg⟩ := hi.segment_zero
    exact .inl (hsame ((allocate_keeps_segment hi ho hg).trans hg.symm))
  | abandoned c hf ho => exact .inl (hsame (abandon_keeps_segment_zero ho))
  | cloned b c hf hb ho => exact .inr (.inl ⟨b, c, hf, hb⟩)

/-! ### The bytes of the image -/

/-- Four bytes as a number, most significant first. -/
theorem wordOfBytes_toNat (b0 b1 b2 b3 : Byte) :
    (wordOfBytes b0 b1 b2 b3).toNat = b0.toNat * 2 ^ 24 + b1.toNat * 2 ^ 16 + b2.toNat * 2 ^ 8 + b3.toNat := by
  simp only [wordOfBytes, BitVec.toNat_append]
  rw [← Nat.shiftLeft_add_eq_or_of_lt b3.isLt, ← Nat.shiftLeft_add_eq_or_of_lt b2.isLt,
    ← Nat.shiftLeft_add_eq_or_of_lt b1.isLt]
  simp only [Nat.shiftLeft_eq]
  omega

/-- The words of four bytes and a rest are the word of the four and the words of the rest. -/
theorem wordsOfBytes_cons_eq_some {b0 b1 b2 b3 : Byte} {rest : List Byte} {ws : List Word} :
    wordsOfBytes (b0 :: b1 :: b2 :: b3 :: rest) = some ws ↔
      ∃ vs, wordsOfBytes rest = some vs ∧ wordOfBytes b0 b1 b2 b3 :: vs = ws :=
  Option.map_eq_some_iff

/-- Bytes make words exactly when their count is a multiple of 4. -/
theorem wordsOfBytes_eq_none_iff (bytes : List Byte) : wordsOfBytes bytes = none ↔ bytes.length % 4 ≠ 0 := by
  induction bytes using wordsOfBytes.induct with
  | case1 => simp [wordsOfBytes]
  | case2 b0 b1 b2 b3 rest ih =>
    simp only [wordsOfBytes, Option.map_eq_none_iff, ih, List.length_cons]
    omega
  | case3 | case4 | case5 => simp [wordsOfBytes]

theorem wordsOfBytes_length {bytes : List Byte} {ws : List Word} (h : wordsOfBytes bytes = some ws) :
    bytes.length = 4 * ws.length := by
  induction bytes using wordsOfBytes.induct generalizing ws with
  | case1 => cases h; rfl
  | case2 b0 b1 b2 b3 rest ih =>
    obtain ⟨vs, hvs, rfl⟩ := wordsOfBytes_cons_eq_some.mp h
    simp only [List.length_cons, ih hvs]
    omega
  | case3 | case4 | case5 => cases h

/-- Word `k` is made of the four bytes from offset `4 * k` on. -/
theorem wordsOfBytes_getElem? {bytes : List Byte} {ws : List Word} (h : wordsOfBytes bytes = some ws) {k : Nat} {w : Word}
    (hk : ws[k]? = some w) :
    ∃ b0 b1 b2 b3, bytes[4 * k]? = some b0 ∧ bytes[4 * k + 1]? = some b1 ∧ bytes[4 * k + 2]? = some b2 ∧
      bytes[4 * k + 3]? = some b3 ∧ wordOfBytes b0 b1 b2 b3 = w := by
  induction bytes using wordsOfBytes.induct generalizing ws k with
  | case1 => cases h; cases hk
  | case2 b0 b1 b2 b3 rest ih =>
    obtain ⟨vs, hvs, rfl⟩ := wordsOfBytes_cons_eq_some.mp h
    cases k with
    | zero => exact ⟨b0, b1, b2, b3, rfl, rfl, rfl, rfl, Option.some.inj hk⟩
    | succ k => exact ih hvs hk
  | case3 | case4 | case5 => cases h

/-- The loader calls an image malformed exactly when its bytes make no words. -/
theorem loadImage_malformed_iff (bytes : List Byte) :
    loadImage bytes = .error .malformedProgram ↔ wordsOfBytes bytes = none := by
  cases hb : wordsOfBytes bytes with
  | none => simp [loadImage, hb]
  | some ws => by_cases hl : ws.length ≤ Config.maxSegmentLength <;> simp [loadImage, hb, hl]

/-- Settles O26, by induction on the bytes in groups of four. -/
theorem imageBytesAreBigEndian : Obligations.ImageBytesAreBigEndian := by
  intro bytes
  refine ⟨?_, (loadImage_malformed_iff bytes).trans (wordsOfBytes_eq_none_iff bytes), fun ws hws => ?_⟩
  · rw [← Option.ne_none_iff_exists', Ne, wordsOfBytes_eq_none_iff, not_not]
  · refine ⟨wordsOfBytes_length hws, fun k w hk => ?_⟩
    obtain ⟨b0, b1, b2, b3, h0, h1, h2, h3, rfl⟩ := wordsOfBytes_getElem? hws hk
    exact ⟨b0, b1, b2, b3, h0, h1, h2, h3, wordOfBytes_toNat b0 b1 b2 b3⟩

end Sys2Proof.Machine

/-! Family 30_encoding: a word decodes to an instruction exactly when its opcode and operand fields are the instruction's, so
only the used bits of a word matter; encoding, re-encoding, the opcode map and the ignored bits follow. -/

namespace Sys2Proof

/-! ### The decoder, row by row -/

/-- The opcode bits of a word are read back. -/
@[simp] theorem opField_append (op : BitVec 4) : opField (op ++ 0#28) = op := by
  revert op
  decide

/-- The operands of an instruction are the ones that its fields of `w` name (30_encoding.md R82, R83, R86). -/
def Instr.operandsIn (w : Word) : Instr → Prop
  | .conditionalMove a b c | .arrayIndex a b c | .arrayAmendment a b c | .addition a b c | .multiplication a b c
  | .division a b c | .notAnd a b c => a = .ofIndex (aField w) ∧ b = .ofIndex (bField w) ∧ c = .ofIndex (cField w)
  | .halt => True
  | .allocation b c | .loadProgram b c => b = .ofIndex (bField w) ∧ c = .ofIndex (cField w)
  | .abandonment c | .output c | .input c => c = .ofIndex (cField w)
  | .orthography sa imm => sa = .ofIndex (saField w) ∧ imm = (immField w).setWidth 32

/-- A word is an instruction exactly when it has the instruction's opcode and names its operands. -/
theorem decode_eq_ok_iff {w : Word} {i : Instr} : decode w = .ok i ↔ opField w = i.opcode ∧ i.operandsIn w := by
  constructor
  · intro h
    have hop := (opField w).isLt
    obtain ⟨n, hn⟩ : ∃ n, (opField w).toNat = n := ⟨_, rfl⟩
    rw [decode_of_op hn] at h
    rw [hn] at hop
    interval_cases n <;> cases h <;> exact ⟨BitVec.eq_of_toNat_eq hn, by simp [Instr.operandsIn]⟩
  · rintro ⟨hop, hw⟩
    rw [decode, hop]
    cases i with
    | halt => rfl
    | _ => simp_all [Instr.operandsIn, Instr.opcode, decodeOp]

/-- A word is the instruction of a row of the opcode map exactly when its opcode bits match (30_encoding.md R88). -/
theorem decode_eq_ok_iff_match {w : Word} {i : Instr} (op : BitVec 4) (hop : i.opcode = op) (hw : i.operandsIn w) :
    decode w = .ok i ↔ w &&& 0xF0000000#32 = (op ++ 0#28 : BitVec 32) := by
  rw [decode_eq_ok_iff, opcode_match, and_iff_left hw, hop]

/-- A register with the number of an index is the register of that index. -/
theorem Reg.eq_ofIndex {r : Reg} {k : BitVec 3} (h : r.index.toNat = k.toNat) : r = .ofIndex k := by
  rw [← BitVec.eq_of_toNat_eq h, Reg.ofIndex_index]

/-- The zero-extended immediate field, from the number of the word. -/
theorem ofNat_mod_eq_immField (w : Word) : BitVec.ofNat 32 (w.toNat % 2 ^ 25) = (immField w).setWidth 32 := by
  rw [← immField_toNat, BitVec.ofNat_toNat]

/-- Settles O4: each row is `decode_eq_ok_iff_match` at its own opcode; the undefined rows are the opcodes above 13. -/
theorem decodingFollowsTheOpcodeMap : Obligations.DecodingFollowsTheOpcodeMap := by
  intro w a b c sa ha hb hc hsa
  obtain rfl := Reg.eq_ofIndex (ha.trans (aField_toNat w).symm)
  obtain rfl := Reg.eq_ofIndex (hb.trans (bField_toNat w).symm)
  obtain rfl := Reg.eq_ofIndex (hc.trans (cField_toNat w).symm)
  obtain rfl := Reg.eq_ofIndex (hsa.trans (saField_toNat w).symm)
  rw [ofNat_mod_eq_immField]
  refine ⟨decode_eq_ok_iff_match 0#4 rfl ⟨rfl, rfl, rfl⟩, decode_eq_ok_iff_match 1#4 rfl ⟨rfl, rfl, rfl⟩,
    decode_eq_ok_iff_match 2#4 rfl ⟨rfl, rfl, rfl⟩, decode_eq_ok_iff_match 3#4 rfl ⟨rfl, rfl, rfl⟩,
    decode_eq_ok_iff_match 4#4 rfl ⟨rfl, rfl, rfl⟩, decode_eq_ok_iff_match 5#4 rfl ⟨rfl, rfl, rfl⟩,
    decode_eq_ok_iff_match 6#4 rfl ⟨rfl, rfl, rfl⟩, decode_eq_ok_iff_match 7#4 rfl trivial,
    decode_eq_ok_iff_match 8#4 rfl ⟨rfl, rfl⟩, decode_eq_ok_iff_match 9#4 rfl rfl,
    decode_eq_ok_iff_match 10#4 rfl rfl, decode_eq_ok_iff_match 11#4 rfl rfl,
    decode_eq_ok_iff_match 12#4 rfl ⟨rfl, rfl⟩, decode_eq_ok_iff_match 13#4 rfl ⟨rfl, rfl⟩, ?_⟩
  have hlt := (opField w).isLt
  calc (∃ e, decode w = .error e)
      ↔ 14 ≤ (opField w).toNat := decode_error_iff
    _ ↔ opField w = 14#4 ∨ opField w = 15#4 := by simp only [← BitVec.toNat_inj, BitVec.toNat_ofNat]; omega
    _ ↔ _ := or_congr (opcode_match w 14#4).symm (opcode_match w 15#4).symm

/-! ### Encoding -/

theorem opField_encode (i : Instr) : opField (encode i) = i.opcode := by
  cases i with
  | orthography sa imm => exact opField_encodeSpecial _ _
  | _ => exact opField_encodeStandard _ _ _ _

theorem Instr.wellFormed_orthography {sa : Reg} {imm : Word} :
    (Instr.orthography sa imm).wellFormed = true ↔ imm.toNat < 2 ^ 25 := by
  simp only [wellFormed, decide_eq_true_eq]
  omega

/-- Of an immediate in range, the encoded 25 bits are all of it. -/
theorem setWidth_setWidth_of_lt {imm : Word} (h : imm.toNat < 2 ^ 25) : (imm.setWidth 25).setWidth 32 = imm := by
  apply BitVec.eq_of_toNat_eq
  simp only [BitVec.toNat_setWidth]
  omega

/-- The word of a well-formed instruction names the instruction's operands. -/
theorem operandsIn_encode {i : Instr} (h : i.wellFormed = true) : i.operandsIn (encode i) := by
  cases i with
  | orthography sa imm =>
    simp [Instr.operandsIn, encode, setWidth_setWidth_of_lt (Instr.wellFormed_orthography.mp h)]
  | _ => simp [Instr.operandsIn, encode]

/-- Settles O1: the encoded word has the instruction's opcode and names its operands. -/
theorem decodeOfEncodeIsTheInstruction : Obligations.DecodeOfEncodeIsTheInstruction :=
  fun i h => decode_eq_ok_iff.mpr ⟨opField_encode i, operandsIn_encode h⟩

/-! ### Re-encoding -/

@[simp] theorem and_usedBits_orthography (w : Word) (sa : Reg) (imm : Word) :
    w &&& (Instr.orthography sa imm).usedBits = w := BitVec.and_allOnes

/-- Encoding what a word decodes to keeps the used bits (30_encoding.md R93). -/
theorem encode_of_decode {w : Word} {i : Instr} (h : decode w = .ok i) : encode i = w &&& i.usedBits := by
  obtain ⟨hop, hw⟩ := decode_eq_ok_iff.mp h
  cases i with
  | halt =>
    rw [Instr.usedBits, opcode_masked, hop]
    rfl
  | orthography sa imm =>
    obtain ⟨rfl, rfl⟩ := hw
    have hfields := special_fields w
    rw [hop] at hfields
    simpa [encode, encodeSpecial, Instr.opcode] using hfields.symm
  | _ => simp_all [Instr.operandsIn, encode, Instr.usedBits, abc_masked, bc_masked, c_masked]

/-- Settles O2: the formats as numbers, and `encode_of_decode`. -/
theorem reencodingClearsExactlyTheUnusedBits : Obligations.ReencodingClearsExactlyTheUnusedBits :=
  ⟨fun _ _ _ _ => encodeStandard_toNat _ _ _ _, fun _ _ => encodeSpecial_toNat _ _, fun _ _ => encode_of_decode,
    by decide, by decide, by decide⟩

/-! ### The ignored bits -/

/-- A word with its unused bits cleared is the same instruction. -/
theorem decode_and_usedBits_iff {w : Word} {i : Instr} : decode (w &&& i.usedBits) = .ok i ↔ decode w = .ok i := by
  simp only [decode_eq_ok_iff]
  cases i with
  | halt =>
    rw [Instr.usedBits, opcode_masked, opField_append]
    rfl
  | orthography sa imm =>
    rw [and_usedBits_orthography]
  | _ => simp [Instr.operandsIn, Instr.usedBits, abc_masked, bc_masked, c_masked]

/-- Two words that agree on a mask over the used bits of what one decodes to are the same instruction. -/
theorem decode_eq_of_masked_eq {w v m : Word} {i : Instr} (hd : decode w = .ok i) (hm : m &&& i.usedBits = i.usedBits)
    (h : w &&& m = v &&& m) : decode w = decode v := by
  have hused : w &&& i.usedBits = v &&& i.usedBits := by
    rw [← hm, ← BitVec.and_assoc, h, BitVec.and_assoc]
  rw [hd, eq_comm, ← decode_and_usedBits_iff, ← hused, decode_and_usedBits_iff, hd]

/-- The standard format uses no bit of 27..9 (30_encoding.md R82). -/
theorem Instr.usedBits_standard {i : Instr} (h : i.opcode ≠ 13#4) : 0xF00001FF#32 &&& i.usedBits = i.usedBits := by
  cases i with
  | orthography sa imm => exact absurd rfl h
  | _ =>
    simp only [usedBits]
    decide

/-- Decoding succeeds below opcode 14. -/
theorem exists_decode_of_opField_lt {w : Word} (h : (opField w).toNat < 14) : ∃ i, decode w = .ok i := by
  cases hd : decode w with
  | ok i => exact ⟨i, rfl⟩
  | error e => exact absurd (decode_error_iff.mp ⟨e, hd⟩) (Nat.not_le.mpr h)

/-- Settles O5: a word below 0xD0000000 decodes to an instruction of the standard format. -/
theorem standardFormatIgnoresBits27To9 : Obligations.StandardFormatIgnoresBits27To9 := by
  intro w v hlt h
  have hop : (opField w).toNat < 13 := by
    rw [opField_toNat]
    omega
  obtain ⟨i, hd⟩ := exists_decode_of_opField_lt (show (opField w).toNat < 14 by omega)
  have hstd : i.opcode ≠ 13#4 := fun h13 => by
    rw [(decode_eq_ok_iff.mp hd).1, h13] at hop
    exact absurd hop (by decide)
  exact ⟨decode_eq_of_masked_eq hd (Instr.usedBits_standard hstd) h, i, hd⟩

/-- Settles O6: the mask of each opcode is its instruction's used bits. -/
theorem unnamedRegisterFieldsAreIgnored : Obligations.UnnamedRegisterFieldsAreIgnored := by
  intro w v
  have hrow : ∀ {i : Instr} (op : BitVec 4), i.opcode = op → i.operandsIn w →
      w &&& 0xF0000000#32 = (op ++ 0#28 : BitVec 32) → decode w = .ok i :=
    fun op hop hw => (decode_eq_ok_iff_match op hop hw).mpr
  refine ⟨hrow 7#4 rfl trivial, ?_, ?_⟩
  · rintro (h | h) hm
    · exact decode_eq_of_masked_eq (hrow (i := .allocation _ _) 8#4 rfl ⟨rfl, rfl⟩ h) BitVec.and_self hm
    · exact decode_eq_of_masked_eq (hrow (i := .loadProgram _ _) 12#4 rfl ⟨rfl, rfl⟩ h) BitVec.and_self hm
  · rintro (h | h | h) hm
    · exact decode_eq_of_masked_eq (hrow (i := .abandonment _) 9#4 rfl rfl h) BitVec.and_self hm
    · exact decode_eq_of_masked_eq (hrow (i := .output _) 10#4 rfl rfl h) BitVec.and_self hm
    · exact decode_eq_of_masked_eq (hrow (i := .input _) 11#4 rfl rfl h) BitVec.and_self hm

/-! ### Worked words -/

/-- Settles O7, by running the decoder on each word. -/
theorem wordsOfTheSpecDecodeAsItSays : Obligations.WordsOfTheSpecDecodeAsItSays := by
  unfold Obligations.WordsOfTheSpecDecodeAsItSays
  decide

end Sys2Proof

namespace Sys2Proof.Machine

/-! ### Undefined words -/

/-- A fault of decode or execute writes the record and advances the finger, and does nothing else. -/
theorem takeFault_raises (k : FaultKind) (s : State) : Raises k s (takeFault k s) :=
  ⟨rfl, rfl, fun _ => rfl, keepsMemory_of_heap_eq rfl, rfl, rfl⟩

/-- A running machine whose fetched word is no instruction takes UndefinedOpcode (60_exceptions.md R207). -/
theorem step_of_decode_error {s : State} {w : Word} {e : DecodeError} (hrun : s.status = .running)
    (hf : codeFetch s.heap s.pc = .ok w) (hd : decode w = .error e) :
    step s = .next (takeFault .undefinedOpcode s) := by
  simp only [step_running hrun, runOne, hf, hd]

/-- The words that are no instruction are the upper end of the range (30_encoding.md R87). -/
theorem decode_error_iff_le (w : Word) : (∃ e, decode w = .error e) ↔ 0xE0000000 ≤ w.toNat := by
  have hw := w.isLt
  rw [decode_error_iff, opField_toNat]
  omega

/-- Settles O8: the opcode is the top of the word, and a decoder error is UndefinedOpcode. -/
theorem onlyOpcodes14And15AreUndefinedAndFault : Obligations.OnlyOpcodes14And15AreUndefinedAndFault := by
  intro w
  refine ⟨decode_error_iff_le w, fun s hrun hf hw => ?_⟩
  obtain ⟨e, hd⟩ := (decode_error_iff_le w).mpr hw
  exact ⟨_, step_of_decode_error hrun hf hd, takeFault_raises _ s⟩

/-! ### orthography -/

/-- Advancing and writing one register has the effect of an instruction that writes it. -/
theorem advance_setReg_writesOnly (d : Reg) (v : Word) (s : State) : WritesOnly d v s (s.advance.setReg d v) :=
  ⟨setReg_reg_same _ _ _, fun _ hr => setReg_reg_other _ _ _ _ hr, keepsMemory_of_heap_eq rfl, rfl, rfl, rfl, rfl⟩

theorem immediate_eq_ofNat (imm : Word) : immediate imm = BitVec.ofNat 32 (imm.toNat % 2 ^ 25) := by
  rw [immediate, ← BitVec.toNat_setWidth, BitVec.ofNat_toNat]

/-- Settles O42: the special format as a number, and one register written. -/
theorem orthographyLoadsTheImmediate : Obligations.OrthographyLoadsTheImmediate := by
  intro sa imm s
  refine ⟨?_, ⟨_, rfl, ?_⟩, fun h => Nat.mod_eq_of_lt (Instr.wellFormed_orthography.mp h)⟩
  · rw [encode, encodeSpecial_toNat, BitVec.toNat_setWidth]
    rfl
  · rw [← immediate_eq_ofNat]
    exact advance_setReg_writesOnly _ _ s

end Sys2Proof.Machine

/-! Family 40_decode_and_step: the decoder fields as shifts and masks, when a step exists and what it runs, and that an
instruction which asks nothing of the host does the same whatever the host's side is. -/

namespace Sys2Proof

/-! ### The fields by shift and mask -/

/-- A bit slice, zero-extended, is the word shifted down and masked (40_decode_and_step.md R100). -/
theorem setWidth_extractLsb'_eq_mask (w : Word) (k : Nat) {n : Nat} (hn : n ≤ 32) :
    (w.extractLsb' k n).setWidth 32 = (w >>> k) &&& BitVec.ofNat 32 (2 ^ n - 1) := by
  have hpow : 2 ^ n ≤ 2 ^ 32 := Nat.pow_le_pow_right (by decide) hn
  have hpos : 0 < 2 ^ n := Nat.two_pow_pos n
  have hmod : (w.toNat >>> k) % 2 ^ n < 2 ^ n := Nat.mod_lt _ hpos
  apply BitVec.eq_of_toNat_eq
  rw [BitVec.toNat_setWidth, BitVec.extractLsb'_toNat, BitVec.toNat_and, BitVec.toNat_ushiftRight, BitVec.toNat_ofNat,
    Nat.mod_eq_of_lt (by omega), Nat.mod_eq_of_lt (a := 2 ^ n - 1) (by omega), Nat.and_two_pow_sub_one_eq_mod]

/-- The opcode is the top of the word, so its slice needs no mask. -/
theorem opField_setWidth_eq_shift (w : Word) : (opField w).setWidth 32 = w >>> (28 : Nat) := by
  have hw := w.isLt
  apply BitVec.eq_of_toNat_eq
  rw [BitVec.toNat_setWidth, opField_toNat, BitVec.toNat_ushiftRight, Nat.shiftRight_eq_div_pow]
  omega

/-- Settles O3: each field's number and its shift and mask; the two fields at bit 0 are not shifted. -/
theorem decoderFieldsAreTheSlices : Obligations.DecoderFieldsAreTheSlices := by
  intro w
  have hunshifted := BitVec.ushiftRight_zero w
  exact ⟨⟨opField_toNat w, opField_setWidth_eq_shift w⟩,
    ⟨aField_toNat w, setWidth_extractLsb'_eq_mask w 6 (by decide)⟩,
    ⟨bField_toNat w, setWidth_extractLsb'_eq_mask w 3 (by decide)⟩,
    ⟨cField_toNat w, hunshifted ▸ setWidth_extractLsb'_eq_mask w 0 (n := 3) (by decide)⟩,
    ⟨saField_toNat w, setWidth_extractLsb'_eq_mask w 25 (by decide)⟩,
    ⟨immField_toNat w, hunshifted ▸ setWidth_extractLsb'_eq_mask w 0 (n := 25) (by decide)⟩⟩

end Sys2Proof

namespace Sys2Proof.Machine

/-! ### When a step exists, and what it runs -/

/-- Settles O9, by `step_of_fetches`. -/
theorem stepRunsTheDecodedInstruction : Obligations.StepRunsTheDecodedInstruction :=
  fun _ _ => step_of_fetches

/-- A running machine has a step, whatever it fetches: a fault of the step is a next state too. -/
theorem exists_step_of_running {s : State} (hrun : s.status = .running) : ∃ t, step s = .next t := by
  rw [step_running hrun]
  obtain ⟨-, he⟩ | ⟨_, _, -, -, he⟩ | ⟨_, i, -, -, he⟩ := runOne_cases s
  · exact ⟨_, he⟩
  · exact ⟨_, he⟩
  · exact he ▸ exec_answers_next i s

theorem step_halted {s : State} (h : s.status = .halted) : step s = .fault .halted := by
  simp only [step, h]

theorem step_faulted {s : State} {k : FaultKind} {o : Word} (h : s.status = .faulted k o) :
    step s = .fault (.faulted k o) := by
  simp only [step, h]

/-- Settles O12: a step answers a next state from RUNNING only, and always there; each terminal state stops the machine. -/
theorem stepExistsExactlyWhileRunning : Obligations.StepExistsExactlyWhileRunning :=
  ⟨fun _ => ⟨fun ⟨_, h⟩ => (step_next_cases h).1, exists_step_of_running⟩,
    fun _ => step_halted, fun _ _ _ => step_faulted⟩

/-! ### The host's side -/

/-- conditional_move on a zero condition only advances (42_alu.md R140). -/
theorem exec_conditionalMove_of_eq_zero {a b c : Reg} {s : State} (hc : s.reg c = 0#32) :
    exec (.conditionalMove a b c) s = .next s.advance := by
  simp [exec, execConditionalMove, moveTaken, hc]

/-- conditional_move on a non-zero condition moves (42_alu.md R140). -/
theorem exec_conditionalMove_of_ne_zero {a b c : Reg} {s : State} (hc : s.reg c ≠ 0#32) :
    exec (.conditionalMove a b c) s = .next (s.advance.setReg a (s.reg b)) := by
  simp [exec, execConditionalMove, moveTaken, hc]

/-- Concluding with another host's side, when the handler's result differs in the host's side only. -/
theorem conclude_with_host {α : Type} (s : State) (h : HostSide) (f : α → State) (x : Except FaultKind α) :
    conclude { s with host := h } (x.map fun v => { f v with host := h }) =
      { conclude s (x.map f) with host := h } := by
  cases x <;> rfl

/-- Settles O22: the operands and the results of the ten instructions that do not ask are the same under another host's side,
through `conclude` and through conditional_move's two branches; the four other instructions ask. -/
theorem otherInstructionsDoNotDependOnTheHost : Obligations.OtherInstructionsDoNotDependOnTheHost := by
  intro i s t h hno hx
  cases i with
  | allocation | output | input | loadProgram => cases hno
  | addition | multiplication | notAnd | orthography | halt => cases hx; rfl
  | conditionalMove a b c =>
    by_cases hc : s.reg c = 0#32
    · rw [exec_conditionalMove_of_eq_zero hc] at hx
      cases hx
      exact exec_conditionalMove_of_eq_zero (s := { s with host := h }) hc
    · rw [exec_conditionalMove_of_ne_zero hc] at hx
      cases hx
      exact exec_conditionalMove_of_ne_zero (s := { s with host := h }) hc
  | division a b c =>
    cases hx
    exact congrArg Host.Outcome.next (conclude_with_host s h (s.advance.setReg a) (aluDiv (s.reg b) (s.reg c)))
  | arrayIndex a b c =>
    cases hx
    exact congrArg Host.Outcome.next
      (conclude_with_host s h (s.advance.setReg a) (memRead s.heap (s.reg b) (s.reg c)))
  | arrayAmendment a b c =>
    cases hx
    exact congrArg Host.Outcome.next
      (conclude_with_host s h s.advance.setHeap (memWrite s.heap (s.reg a) (s.reg b) (s.reg c)))
  | abandonment c =>
    cases hx
    exact congrArg Host.Outcome.next (conclude_with_host s h s.advance.setHeap (abandon (s.reg c) s.heap))

end Sys2Proof.Machine

/-! Family 41_heap_ops: which identifier an allocation returns. -/

namespace Sys2Proof.Machine

/-- An abandonment that goes through puts its identifier at the head of the free list (41_heap_ops.md R121). -/
theorem abandon_free {id : Word} {h h' : Heap} (ho : abandon id h = .ok h') : h'.free = id :: h.free := by
  rcases abandon_cases id h with ⟨-, he⟩ | ⟨-, -, he⟩ | ⟨-, -, he⟩ <;> rw [he] at ho <;> cases ho
  rfl

/-- An admitted allocation takes the identifier at the head of the free list, whatever the length (R120). -/
theorem allocate_of_free_cons {id : Word} {rest : List Word} {h : Heap} (hf : h.free = id :: rest) (n : Word) :
    ∃ h', allocate true n h = .ok (id, h') ∧ h'.free = rest := by
  rcases allocate_cases true n h with ⟨hno, -⟩ | ⟨_, _, -, hf', he⟩ | ⟨-, hnil, -⟩ | ⟨-, hnil, -⟩
  · cases hno
  · obtain ⟨rfl, rfl⟩ := List.cons.inj (hf.symm.trans hf')
    exact ⟨_, he, rfl⟩
  all_goals cases hf.symm.trans hnil

/-- An admitted allocation with nothing to reuse mints the length of the slot table, when that is an identifier (R120). -/
theorem allocate_of_free_nil {h : Heap} (hf : h.free = []) (hk : h.slots.length < 2 ^ 32) (n : Word) :
    ∃ h', allocate true n h = .ok (BitVec.ofNat 32 h.slots.length, h') := by
  rcases allocate_cases true n h with ⟨hno, -⟩ | ⟨_, _, -, hcons, -⟩ | ⟨-, -, -, he⟩ | ⟨-, -, hge, -⟩
  · cases hno
  · cases hf.symm.trans hcons
  · exact ⟨_, he⟩
  · exact absurd hk (Nat.not_lt.mpr hge)

/-- Settles O30: an abandonment pushes its identifier on the free list and an allocation pops it; with an empty list, as after
reset with its one slot, the allocation mints the length of the slot table. -/
theorem allocationReusesTheLastAbandonedIdentifier : Obligations.AllocationReusesTheLastAbandonedIdentifier := by
  refine ⟨fun h h' id m ho => ?_, fun h m hf hk => ?_, fun image host m => ?_⟩
  · have hpushed : h'.free = id :: h.free := abandon_free ho
    exact ⟨hpushed, allocate_of_free_cons hpushed m⟩
  · obtain ⟨h', ho⟩ := allocate_of_free_nil hf hk m
    exact ⟨_, h', ho, by rw [BitVec.toNat_ofNat, Nat.mod_eq_of_lt hk]⟩
  · have hone : (State.resetWith image host).heap.slots.length = 1 := rfl
    exact allocate_of_free_nil rfl (hone ▸ Nat.one_lt_two_pow (by decide)) m

end Sys2Proof.Machine

/-! Family 42_alu: the six register and ALU instructions, each as its ALU result in numbers and the one register written. -/

namespace Sys2Proof

/-- A word of opcode 13 is `orthography` of its register field and its zero-extended immediate field (30_encoding.md R83). -/
theorem decode_of_opcode13 {w : Word} {sa : Reg} (hlo : 0xD0000000 ≤ w.toNat) (hhi : w.toNat ≤ 0xDFFFFFFF)
    (hsa : sa.index.toNat = w.toNat / 2 ^ 25 % 2 ^ 3) :
    decode w = .ok (.orthography sa ((immField w).setWidth 32)) := by
  have hop : (opField w).toNat = 13 := by
    rw [opField_toNat]
    omega
  exact decode_eq_ok_iff.mpr
    ⟨BitVec.eq_of_toNat_eq hop, Reg.eq_ofIndex (hsa.trans (saField_toNat w).symm), rfl⟩

end Sys2Proof

namespace Sys2Proof.Machine

/-! ### The ALU's results as numbers (42_alu.md R146) -/

theorem aluAdd_eq_ofNat (x y : Word) : aluAdd x y = BitVec.ofNat 32 ((x.toNat + y.toNat) % 2 ^ 32) := by
  rw [aluAdd, ← BitVec.toNat_add, BitVec.ofNat_toNat, BitVec.setWidth_eq]

theorem aluMul_eq_ofNat (x y : Word) : aluMul x y = BitVec.ofNat 32 ((x.toNat * y.toNat) % 2 ^ 32) := by
  rw [aluMul, ← BitVec.toNat_mul, BitVec.ofNat_toNat, BitVec.setWidth_eq]

theorem aluDiv_of_eq_zero (x : Word) {y : Word} (hy : y = 0#32) : aluDiv x y = .error .divisionByZero :=
  if_pos hy

theorem aluDiv_of_ne_zero (x : Word) {y : Word} (hy : y ≠ 0#32) :
    aluDiv x y = .ok (BitVec.ofNat 32 (x.toNat / y.toNat)) := by
  rw [aluDiv, if_neg hy, ← BitVec.toNat_udiv, BitVec.ofNat_toNat, BitVec.setWidth_eq]

theorem aluNand_eq_ofNat (x y : Word) : aluNand x y = BitVec.ofNat 32 (2 ^ 32 - 1 - (x.toNat &&& y.toNat)) := by
  rw [aluNand, ← BitVec.toNat_and, ← BitVec.toNat_not, BitVec.ofNat_toNat, BitVec.setWidth_eq]

theorem aluNand_getLsbD (x y : Word) {i : Nat} (hi : i < 32) :
    (aluNand x y).getLsbD i = !(x.getLsbD i && y.getLsbD i) := by
  rw [aluNand, BitVec.getLsbD_not, BitVec.getLsbD_and, decide_eq_true hi, Bool.true_and]

/-- Zero-extending an immediate that fits the field changes nothing. -/
theorem immediate_setWidth (imm : BitVec 25) : immediate (imm.setWidth 32) = imm.setWidth 32 := by
  rw [immediate, BitVec.setWidth_setWidth_of_le imm (by decide), BitVec.setWidth_eq]

/-! ### The effects -/

/-- addition, multiplication and not_and write the ALU's result to A, and nothing else. -/
theorem binaryAlu_writesOnly (f : Word → Word → Word) (a b c : Reg) (s : State) :
    WritesOnly a (f (s.reg b) (s.reg c)) s (binaryAlu f a b c s) :=
  advance_setReg_writesOnly a _ s

theorem advance_writesNothing (s : State) : WritesNothing s s.advance :=
  ⟨fun _ => rfl, keepsMemory_of_heap_eq rfl, rfl, rfl, rfl, rfl⟩

/-- division by zero faults, whatever the dividend (42_alu.md R143). -/
theorem exec_division_of_eq_zero {a b c : Reg} {s : State} (hc : s.reg c = 0#32) :
    exec (.division a b c) s = .next (takeFault .divisionByZero s) := by
  simp only [exec, execDivision, aluDiv_of_eq_zero _ hc, Except.map, conclude_error]

/-- division by a non-zero word writes the quotient (42_alu.md R143). -/
theorem exec_division_of_ne_zero {a b c : Reg} {s : State} (hc : s.reg c ≠ 0#32) :
    exec (.division a b c) s =
      .next (s.advance.setReg a (BitVec.ofNat 32 ((s.reg b).toNat / (s.reg c).toNat))) := by
  simp only [exec, execDivision, aluDiv_of_ne_zero _ hc, Except.map, conclude_ok]

/-! ### The six instructions -/

/-- Settles O53: the bounds fix the word's opcode to 13, so the step executes `orthography` of the word's own fields. -/
theorem orthographyWordLoadsItsImmediate : Obligations.OrthographyWordLoadsItsImmediate := by
  intro w sa hlo hhi hsa
  refine ⟨?_, fun s hrun hf => ⟨s.advance.setReg sa ((immField w).setWidth 32), ?_, ?_⟩⟩
  · rw [encOrth, hsa]
    omega
  · rw [step_of_fetches hrun ⟨w, hf, decode_of_opcode13 hlo hhi hsa⟩, exec, execOrthography, immediate_setWidth]
  · rw [ofNat_mod_eq_immField]
    exact advance_setReg_writesOnly sa _ s

/-- Settles O37: the condition word selects between moving and only advancing. -/
theorem conditionalMoveMovesOnANonzeroWord : Obligations.ConditionalMoveMovesOnANonzeroWord :=
  fun a b c s => ⟨encodeStandard_toNat 0#4 a.index b.index c.index,
    fun hc => ⟨_, exec_conditionalMove_of_ne_zero hc, advance_setReg_writesOnly a _ s⟩,
    fun hc => ⟨_, exec_conditionalMove_of_eq_zero hc, advance_writesNothing s⟩⟩

/-- Settles O38: the ALU's sum as a number, written to A. -/
theorem additionIsModulo2To32 : Obligations.AdditionIsModulo2To32 := by
  intro a b c s
  refine ⟨encodeStandard_toNat 3#4 a.index b.index c.index, _, rfl, ?_⟩
  rw [← aluAdd_eq_ofNat]
  exact binaryAlu_writesOnly aluAdd a b c s

/-- Settles O39: the ALU's product as a number, written to A. -/
theorem multiplicationIsModulo2To32 : Obligations.MultiplicationIsModulo2To32 := by
  intro a b c s
  refine ⟨encodeStandard_toNat 4#4 a.index b.index c.index, _, rfl, ?_⟩
  rw [← aluMul_eq_ofNat]
  exact binaryAlu_writesOnly aluMul a b c s

/-- Settles O40: the divisor selects between the quotient written to A and the fault. -/
theorem divisionIsTheUnsignedFloorQuotient : Obligations.DivisionIsTheUnsignedFloorQuotient :=
  fun a b c s => ⟨encodeStandard_toNat 5#4 a.index b.index c.index,
    fun hc => ⟨_, exec_division_of_ne_zero hc, advance_setReg_writesOnly a _ s⟩,
    fun hc => ⟨_, exec_division_of_eq_zero hc, takeFault_raises _ s⟩⟩

/-- Settles O41: the ALU's result as a number and bit by bit, written to A. -/
theorem notAndComplementsTheConjunction : Obligations.NotAndComplementsTheConjunction := by
  intro a b c s
  obtain ⟨hresult, hframe⟩ := binaryAlu_writesOnly aluNand a b c s
  refine ⟨encodeStandard_toNat 6#4 a.index b.index c.index, _, rfl, ⟨hresult.trans (aluNand_eq_ofNat _ _), hframe⟩,
    fun i hi => ?_⟩
  rw [hresult]
  exact aluNand_getLsbD _ _ hi

end Sys2Proof.Machine

/-! Family 43_array: load, store, allocate and abandon, each as the heap operation that answers it and the frame around it. -/

namespace Sys2Proof.Machine

/-- Advancing and setting the heap writes no register. -/
theorem advance_setHeap_frame (s : State) (h : Heap) :
    KeepsRegs s (s.advance.setHeap h) ∧ OnlyAdvances s (s.advance.setHeap h) :=
  ⟨fun _ => rfl, rfl, rfl, rfl, rfl⟩

/-! ### Load -/

theorem exec_arrayIndex_of_ok {a b c : Reg} {s : State} {v : Word} (ho : memRead s.heap (s.reg b) (s.reg c) = .ok v) :
    exec (.arrayIndex a b c) s = .next (s.advance.setReg a v) := by
  simp only [exec, execArrayIndex, State.address, ho, Except.map, conclude_ok]

theorem exec_arrayIndex_of_error {a b c : Reg} {s : State} {k : FaultKind}
    (ho : memRead s.heap (s.reg b) (s.reg c) = .error k) : exec (.arrayIndex a b c) s = .next (takeFault k s) := by
  simp only [exec, execArrayIndex, State.address, ho, Except.map, conclude_error]

/-- Settles O43: the read's three answers, the last one written to A. -/
theorem arrayIndexLoadsTheAddressedWord : Obligations.ArrayIndexLoadsTheAddressedWord :=
  fun a b c s => ⟨encodeStandard_toNat 1#4 a.index b.index c.index,
    fun hdead => ⟨_, exec_arrayIndex_of_error (memRead_dead hdead), takeFault_raises _ s⟩,
    fun _ hg hge => ⟨_, exec_arrayIndex_of_error ((memRead_live hg).trans (if_neg (Nat.not_lt.mpr hge))),
      takeFault_raises _ s⟩,
    fun _ hg hlt => ⟨_, exec_arrayIndex_of_ok ((memRead_live hg).trans (if_pos hlt)),
      advance_setReg_writesOnly a _ s⟩⟩

/-! ### Store -/

theorem exec_arrayAmendment_of_error {a b c : Reg} {s : State} {k : FaultKind}
    (ho : memWrite s.heap (s.reg a) (s.reg b) (s.reg c) = .error k) :
    exec (.arrayAmendment a b c) s = .next (takeFault k s) := by
  simp only [exec, execArrayAmendment, State.address, ho, Except.map, conclude_error]

/-- A store leaves the free list alone. -/
theorem memWrite_free {h h' : Heap} {id i v : Word} (ho : memWrite h id i v = .ok h') : h'.free = h.free := by
  rcases memWrite_cases h id i v with ⟨-, he⟩ | ⟨g, -, ⟨-, he⟩ | ⟨-, he⟩⟩ <;> rw [he] at ho <;> cases ho
  rfl

/-- Settles O44: the store's three answers; where it goes through, read after write gives the word and the frame. -/
theorem arrayAmendmentStoresAtTheAddress : Obligations.ArrayAmendmentStoresAtTheAddress := by
  intro a b c s id i hw haddr
  obtain ⟨rfl, rfl⟩ := Prod.mk.inj haddr
  refine ⟨encodeStandard_toNat 2#4 a.index b.index c.index, rfl, fun hdead => ?_, fun g hg hge => ?_, fun g hg hlt => ?_⟩
  · exact ⟨_, exec_arrayAmendment_of_error (memWrite_dead hdead), takeFault_raises _ s⟩
  · exact ⟨_, exec_arrayAmendment_of_error ((memWrite_live hg).trans (if_neg (Nat.not_lt.mpr hge))),
      takeFault_raises _ s⟩
  · obtain ⟨h, ho⟩ := exists_memWrite_of_lt hg hlt (s.reg c)
    have hread := memRead_memWrite hw ho
    exact ⟨_, exec_arrayAmendment_of_memWrite ho, (hread _ _).trans (if_pos rfl),
      ⟨fun id' i' hne => (hread id' i').trans (if_neg hne), memWrite_slots_length ho, memWrite_free ho⟩,
      advance_setHeap_frame s h⟩

/-! ### Allocate -/

theorem exec_allocation_of_ok {b c : Reg} {s : State} {id : Word} {h : Heap}
    (ho : allocate (s.heapAdmits (s.reg c)) (s.reg c) s.heap = .ok (id, h)) :
    exec (.allocation b c) s = .next ((s.advance.setHeap h).setReg b id) := by
  simp only [exec, execAllocation, ho, Except.map, conclude_ok]

theorem exec_allocation_of_error {b c : Reg} {s : State} {k : FaultKind}
    (ho : allocate (s.heapAdmits (s.reg c)) (s.reg c) s.heap = .error k) :
    exec (.allocation b c) s = .next (takeFault k s) := by
  simp only [exec, execAllocation, ho, Except.map, conclude_error]

/-- With no identifier left there is none to allocate, whatever the storage answers (41_heap_ops.md R120). -/
theorem allocate_of_full {h : Heap} (hf : h.free = []) (hk : h.slots.length = 2 ^ 32) (admits : Bool) (n : Word) :
    allocate admits n h = .error .allocationFailure := by
  rcases allocate_cases admits n h with ⟨-, he⟩ | ⟨_, _, -, hcons, -⟩ | ⟨-, -, hlt, -⟩ | ⟨-, -, -, he⟩
  · exact he
  · cases hf.symm.trans hcons
  · exact absurd hk hlt.ne
  · exact he

/-- An admitted allocation goes through when an identifier is free or can be minted. -/
theorem exists_allocate {h : Heap} (hroom : h.free ≠ [] ∨ h.slots.length < 2 ^ 32) (n : Word) :
    ∃ id h', allocate true n h = .ok (id, h') := by
  cases hf : h.free with
  | cons top rest =>
    obtain ⟨h', ho, -⟩ := allocate_of_free_cons hf n
    exact ⟨top, h', ho⟩
  | nil =>
    obtain ⟨h', ho⟩ := allocate_of_free_nil hf (hroom.resolve_left (not_not.mpr hf)) n
    exact ⟨_, h', ho⟩

/-- An allocation that goes through reuses the top of the free list, or with an empty list mints the next identifier. -/
theorem allocate_ok_cases {admits : Bool} {n id : Word} {h h' : Heap} (ho : allocate admits n h = .ok (id, h')) :
    (∃ rest, h.free = id :: rest ∧ h' = { slots := h.slots.set id.toNat (.live (.zeros n)), free := rest }) ∨
    (h.free = [] ∧ id.toNat = h.slots.length ∧ h' = { h with slots := h.slots ++ [.live (.zeros n)] }) := by
  rcases allocate_cases admits n h with ⟨-, he⟩ | ⟨top, rest, -, hf, he⟩ | ⟨-, hf, hk, he⟩ | ⟨-, -, -, he⟩ <;>
    rw [he] at ho <;> cases ho
  · exact .inl ⟨rest, hf, rfl⟩
  · exact .inr ⟨hf, by rw [BitVec.toNat_ofNat, Nat.mod_eq_of_lt hk], rfl⟩

/-- An identifier at or beyond the table's length does not exist, so it is not live (10_state.md R32). -/
theorem isLive_eq_false_of_length_le {h : Heap} {id : Word} (hle : h.slots.length ≤ id.toNat) : h.isLive id = false :=
  Bool.eq_false_iff.mpr fun hlive =>
    have ⟨_, hg⟩ := isLive_iff.mp hlive
    absurd (lt_slots_of_segment? hg) (Nat.not_lt.mpr hle)

/-- The identifier allocated was not live: it was free, or it did not exist. -/
theorem allocate_isLive_before {admits : Bool} {n id : Word} {h h' : Heap} (hi : h.Inv)
    (ho : allocate admits n h = .ok (id, h')) : h.isLive id = false := by
  obtain ⟨rest, hf, -⟩ | ⟨-, hid, -⟩ := allocate_ok_cases ho
  · exact hi.not_live_of_free (hf ▸ List.mem_cons_self)
  · exact isLive_eq_false_of_length_le hid.ge

/-- Segment 0 is live, so an identifier that is not live is not 0. -/
theorem Heap.Inv.ne_zero_of_not_live {h : Heap} (hi : h.Inv) {id : Word} (hl : h.isLive id = false) : id ≠ 0#32 := by
  rintro rfl
  obtain ⟨-, hlive, -⟩ := hi
  cases hlive.symm.trans hl

/-- The segment an identifier names after a live slot is added at the end of the table. -/
theorem segment?_append_live (h : Heap) (g : Segment) (id : Word) :
    ({ h with slots := h.slots ++ [.live g] } : Heap).segment? id =
      if id.toNat = h.slots.length then some g else h.segment? id := by
  by_cases hid : id.toNat = h.slots.length
  · rw [if_pos hid, segment?_eq_some, hid, List.getElem?_concat_length]
  · rw [if_neg hid]
    unfold Heap.segment?
    rcases Nat.lt_or_gt_of_ne hid with hlt | hgt
    · rw [List.getElem?_append_left hlt]
    · rw [List.getElem?_eq_none (by simpa using hgt), List.getElem?_eq_none hgt.le]

/-- After an allocation the identifier names zeros of the length asked for, and every other one names what it did. -/
theorem allocate_segment? {admits : Bool} {n id : Word} {h h' : Heap} (hi : h.Inv)
    (ho : allocate admits n h = .ok (id, h')) (id' : Word) :
    h'.segment? id' = if id' = id then some (.zeros n) else h.segment? id' := by
  obtain ⟨rest, hf, rfl⟩ | ⟨-, hid, rfl⟩ := allocate_ok_cases ho
  · obtain ⟨-, -, -, hfree, -⟩ := hi
    obtain ⟨-, hdead⟩ := hfree id (hf ▸ List.mem_cons_self)
    rw [segment?_set h.slots rest h.free]
    simp only [toNat_lt_slots hdead, and_true, BitVec.toNat_inj]
  · rw [segment?_append_live]
    simp only [← hid, BitVec.toNat_inj]

/-- Settles O45: the allocation that goes through has the segments of `allocate_segment?` and one of the two cases of
`allocate_ok_cases`; the other two clauses are its failures. -/
theorem allocationGivesAFreshZeroedSegment : Obligations.AllocationGivesAFreshZeroedSegment := by
  intro b c s
  refine ⟨encodeStandard_toNat 8#4 0#3 b.index c.index, fun hi hadm hroom => ?_, fun hadm => ?_, fun hf hk => ?_⟩
  · obtain ⟨id, h, ho⟩ := exists_allocate hroom (s.reg c)
    have hseg := allocate_segment? hi ho
    have hfresh := allocate_isLive_before hi ho
    refine ⟨_, id, exec_allocation_of_ok (hadm ▸ ho), setReg_reg_same _ _ _, fun _ hr => setReg_reg_other _ _ _ _ hr,
      hi.ne_zero_of_not_live hfresh, hfresh, fun top rest hf => ?_, fun hf => ?_,
      fun _ => memRead_live ((hseg id).trans (if_pos rfl)),
      fun id' i hne => memRead_congr ((hseg id').trans (if_neg hne)) i, rfl, rfl, rfl, rfl⟩
    · obtain ⟨rest', hf', rfl⟩ | ⟨hnil, -⟩ := allocate_ok_cases ho
      · obtain ⟨rfl, rfl⟩ := List.cons.inj (hf.symm.trans hf')
        exact ⟨rfl, rfl, List.length_set⟩
      · cases hf.symm.trans hnil
    · obtain ⟨_, hcons, -⟩ | ⟨-, hid, rfl⟩ := allocate_ok_cases ho
      · cases hf.symm.trans hcons
      · exact ⟨hid, hf, List.length_append⟩
  · exact ⟨_, exec_allocation_of_error (hadm ▸ rfl), takeFault_raises _ s⟩
  · exact ⟨_, exec_allocation_of_error (allocate_of_full hf hk _ _), takeFault_raises _ s⟩

/-! ### Abandon -/

theorem exec_abandonment_of_ok {c : Reg} {s : State} {h : Heap} (ho : abandon (s.reg c) s.heap = .ok h) :
    exec (.abandonment c) s = .next (s.advance.setHeap h) := by
  simp only [exec, execAbandonment, ho, Except.map, conclude_ok]

theorem exec_abandonment_of_error {c : Reg} {s : State} {k : FaultKind} (ho : abandon (s.reg c) s.heap = .error k) :
    exec (.abandonment c) s = .next (takeFault k s) := by
  simp only [exec, execAbandonment, ho, Except.map, conclude_error]

theorem abandon_of_eq_zero {id : Word} (h0 : id = 0#32) (h : Heap) : abandon id h = .error .abandonSegmentZero :=
  if_pos h0

theorem abandon_of_not_live {id : Word} {h : Heap} (h0 : id ≠ 0#32) (hl : h.isLive id = false) :
    abandon id h = .error .deadSegment := by
  simp only [abandon, h0, hl, if_false, Bool.false_eq_true]

theorem exists_abandon_of_live {id : Word} {h : Heap} (h0 : id ≠ 0#32) (hl : h.isLive id = true) :
    ∃ h', abandon id h = .ok h' :=
  ⟨_, (if_neg h0).trans (if_pos hl)⟩

/-- After an abandonment the identifier names nothing, and every other one names what it did. -/
theorem abandon_segment? {id : Word} {h h' : Heap} (ho : abandon id h = .ok h') (id' : Word) :
    h'.segment? id' = if id' = id then none else h.segment? id' := by
  rcases abandon_cases id h with ⟨-, he⟩ | ⟨-, -, he⟩ | ⟨-, hl, he⟩ <;> rw [he] at ho <;> cases ho
  obtain ⟨g, hg⟩ := isLive_iff.mp hl
  rw [segment?_set h.slots _ h.free]
  simp only [lt_slots_of_segment? hg, and_true, BitVec.toNat_inj]

/-- Settles O46: the abandonment's three answers; where it goes through, `abandon_segment?` gives the dead identifier and
the frame. -/
theorem abandonmentMakesTheIdentifierDead : Obligations.AbandonmentMakesTheIdentifierDead := by
  intro c s
  refine ⟨encodeStandard_toNat 9#4 0#3 0#3 c.index, fun h0 => ?_, fun h0 hl => ?_, fun h0 hl => ?_⟩
  · exact ⟨_, exec_abandonment_of_error (abandon_of_eq_zero h0 _), takeFault_raises _ s⟩
  · exact ⟨_, exec_abandonment_of_error (abandon_of_not_live h0 hl), takeFault_raises _ s⟩
  · obtain ⟨h, ho⟩ := exists_abandon_of_live h0 hl
    have hseg := abandon_segment? ho
    exact ⟨_, exec_abandonment_of_ok ho, fun i => memRead_dead ((hseg _).trans (if_pos rfl)), abandon_free ho,
      abandon_slots_length ho, fun id' i hne => memRead_congr ((hseg id').trans (if_neg hne)) i,
      advance_setHeap_frame s h⟩

end Sys2Proof.Machine

/-! Family 44_control: halt, the jump and the clone of load_program, and the conditional branch built from conditional_move
and load_program. -/

namespace Sys2Proof.Machine

/-! ### halt -/

/-- Every word of opcode 7 is `halt`: no operand field is looked at (44_control.md R180). -/
theorem decode_of_opcode7 {w : Word} (hlo : 0x70000000 ≤ w.toNat) (hhi : w.toNat ≤ 0x7FFFFFFF) : decode w = .ok .halt := by
  have hop : (opField w).toNat = 7 := by
    rw [opField_toNat]
    omega
  exact decode_eq_ok_iff.mpr ⟨BitVec.eq_of_toNat_eq hop, trivial⟩

/-- Settles O47: `halt` sets the status of the advanced state, and a halted state has no step. -/
theorem haltEndsTheRun : Obligations.HaltEndsTheRun :=
  ⟨fun _ => decode_of_opcode7, by decide,
    fun s => ⟨s.advance.setStatus .halted, rfl, rfl, rfl, fun _ => rfl, keepsMemory_of_heap_eq rfl, rfl, rfl,
      step_halted rfl, rfl⟩⟩

/-! ### The clone's answers (41_heap_ops.md R122) -/

theorem cloneIntoZero_dead {admits : Word → Bool} {id : Word} {h : Heap} (hid : h.segment? id = none) :
    cloneIntoZero admits id h = .error .deadSegment := by
  simp only [cloneIntoZero, hid]

theorem cloneIntoZero_live {admits : Word → Bool} {id : Word} {h : Heap} {g : Segment} (hid : h.segment? id = some g) :
    cloneIntoZero admits id h =
      if admits g.length then .ok (h.setSlot 0#32 (.live g)) else .error .allocationFailure := by
  simp only [cloneIntoZero, hid]

/-- A clone leaves the free list alone. -/
theorem cloneIntoZero_free {admits : Word → Bool} {id : Word} {h h' : Heap} (ho : cloneIntoZero admits id h = .ok h') :
    h'.free = h.free := by
  rcases cloneIntoZero_cases admits id h with ⟨-, he⟩ | ⟨g, -, ⟨-, he⟩ | ⟨-, he⟩⟩ <;> rw [he] at ho <;> cases ho
  rfl

/-! ### load_program -/

/-- load_program with `x[B] = 0` is a jump (44_control.md R181). -/
theorem exec_loadProgram_of_eq_zero {b c : Reg} {s : State} (hb : s.reg b = 0#32) :
    exec (.loadProgram b c) s = .next (s.setPc (s.reg c)) := by
  simp only [exec, execLoadProgram, hb, if_true]

theorem exec_loadProgram_of_ok {b c : Reg} {s : State} {h : Heap} (hb : s.reg b ≠ 0#32)
    (ho : cloneIntoZero s.heapAdmits (s.reg b) s.heap = .ok h) :
    exec (.loadProgram b c) s = .next ((s.setHeap h).setPc (s.reg c)) := by
  simp only [exec, execLoadProgram, hb, if_false, ho, Except.map, conclude_ok]

theorem exec_loadProgram_of_error {b c : Reg} {s : State} {k : FaultKind} (hb : s.reg b ≠ 0#32)
    (ho : cloneIntoZero s.heapAdmits (s.reg b) s.heap = .error k) :
    exec (.loadProgram b c) s = .next (takeFault k s) := by
  simp only [exec, execLoadProgram, hb, if_false, ho, Except.map, conclude_error]

/-- A load_program after which the machine runs on has put its target in the finger: jump and clone both do. -/
theorem exec_loadProgram_pc_of_running {b c : Reg} {s t : State} (h : exec (.loadProgram b c) s = .next t)
    (hrun : t.status = .running) : t.pc = s.reg c := by
  by_cases hb : s.reg b = 0#32
  · cases (exec_loadProgram_of_eq_zero hb).symm.trans h
    rfl
  · cases ho : cloneIntoZero s.heapAdmits (s.reg b) s.heap with
    | ok h' =>
      cases (exec_loadProgram_of_ok hb ho).symm.trans h
      rfl
    | error k =>
      cases (exec_loadProgram_of_error hb ho).symm.trans h
      cases hrun

/-- A running machine whose finger is at or beyond the length of segment 0 takes FetchOutOfBounds (60_exceptions.md R208). -/
theorem step_of_length_le_pc {s : State} {g : Segment} (hrun : s.status = .running) (hg : s.heap.segment? 0#32 = some g)
    (hge : g.length.toNat ≤ s.pc.toNat) : step s = .next (raiseFault .fetchOutOfBounds s.pc s) := by
  have hf : codeFetch s.heap s.pc = .error .fetchOutOfBounds :=
    (codeFetch_live hg).trans (if_neg (Nat.not_lt.mpr hge))
  simp only [step_running hrun, runOne, hf]

/-- Settles O48: the jump, the clone's three answers, and the fetch that the next step makes at the target. -/
theorem loadProgramJumpsOrClonesAndJumps : Obligations.LoadProgramJumpsOrClonesAndJumps := by
  intro b c s
  refine ⟨encodeStandard_toNat 12#4 0#3 b.index c.index, fun hb => ?_, fun hb hdead => ?_, fun g hb hg hno => ?_,
    fun g hb hlive hg hadm => ?_, fun t g hx hrun hg hge => ?_⟩
  · exact ⟨_, exec_loadProgram_of_eq_zero hb, rfl, fun _ => rfl, keepsMemory_of_heap_eq rfl, rfl, rfl, rfl⟩
  · exact ⟨_, exec_loadProgram_of_error hb (cloneIntoZero_dead hdead), takeFault_raises _ s⟩
  · have ho := (cloneIntoZero_live hg).trans (if_neg (Bool.eq_false_iff.mp hno))
    exact ⟨_, exec_loadProgram_of_error hb ho, takeFault_raises _ s⟩
  · have ho := (cloneIntoZero_live hg).trans (if_pos hadm)
    exact ⟨_, exec_loadProgram_of_ok hb ho, rfl, memRead_congr (cloneIntoZero_segment_zero hlive ho),
      fun _ i hne => memRead_congr (cloneIntoZero_segment_other ho hne) i, cloneIntoZero_free ho,
      cloneIntoZero_slots_length ho, fun _ => rfl, rfl, rfl, rfl⟩
  · have hpc : t.pc = s.reg c := exec_loadProgram_pc_of_running hx hrun
    exact ⟨_, step_of_length_le_pc hrun hg (hpc ▸ hge), by rw [raiseFault_status, hpc]⟩

/-! ### The conditional branch -/

/-- Settles O49: the move leaves the zero register alone, so load_program jumps to what the move left in `t`. -/
theorem conditionalBranchIdiomWorks : Obligations.ConditionalBranchIdiomWorks := by
  intro z t u c s hzt hz
  by_cases hc : s.reg c = 0#32
  · exact ⟨_, _, exec_conditionalMove_of_eq_zero hc, exec_loadProgram_of_eq_zero hz, fun hne => absurd hc hne,
      fun _ => rfl⟩
  · have hz' := (setReg_reg_other s.advance t z (s.reg u) hzt).trans hz
    exact ⟨_, _, exec_conditionalMove_of_ne_zero hc, exec_loadProgram_of_eq_zero hz', fun _ => setReg_reg_same _ _ _,
      fun heq => absurd heq hc⟩

end Sys2Proof.Machine

/-! Family 45_io: output in and out of the byte range, and input with each of the host's answers and with none. -/

namespace Sys2Proof.Machine

/-! ### output -/

/-- A byte of the same number as a word is the word's low byte. -/
theorem lowByte_eq_of_toNat_eq {v : Word} {b : Byte} (h : b.toNat = v.toNat) : lowByte v = b :=
  BitVec.eq_of_toNat_eq ((lowByte_toNat (by omega)).trans h.symm)

/-- output above 255 faults, whatever the host would answer (45_io.md R190). -/
theorem exec_output_of_gt {c : Reg} {s : State} (hgt : 255 < (s.reg c).toNat) :
    exec (.output c) s = .next (takeFault .outputOutOfRange s) := by
  simp only [exec, execOutput, hgt, if_true, conclude_error]

theorem exec_output_of_ok {c : Reg} {s : State} {b : Byte} (hb : b.toNat = (s.reg c).toNat)
    (hans : s.outputAnswer b = .ok) : exec (.output c) s = .next (s.advance.emit b) := by
  have hle : ¬ 255 < (s.reg c).toNat := by omega
  simp only [exec, execOutput, hle, if_false, lowByte_eq_of_toNat_eq hb, hans, conclude_ok]

theorem exec_output_of_ioError {c : Reg} {s : State} {b : Byte} (hb : b.toNat = (s.reg c).toNat)
    (hans : s.outputAnswer b = .ioError) : exec (.output c) s = .next (takeFault .ioError s) := by
  have hle : ¬ 255 < (s.reg c).toNat := by omega
  simp only [exec, execOutput, hle, if_false, lowByte_eq_of_toNat_eq hb, hans, conclude_error]

/-- Settles O50: the range fault, and below it the host's two answers to the byte. -/
theorem outputEmitsAByteInRange : Obligations.OutputEmitsAByteInRange := by
  intro c s
  refine ⟨encodeStandard_toNat 10#4 0#3 0#3 c.index, fun hgt => ?_, fun b hb => ⟨fun hans => ?_, fun hans => ?_⟩⟩
  · exact ⟨_, exec_output_of_gt hgt, takeFault_raises _ s⟩
  · exact ⟨_, exec_output_of_ok hb hans, rfl, rfl, rfl, fun _ => rfl, keepsMemory_of_heap_eq rfl, rfl⟩
  · exact ⟨_, exec_output_of_ioError hb hans, rfl, rfl, rfl⟩

/-! ### input -/

/-- input with no answer from the host is held (45_io.md R193; log 4). -/
theorem exec_input_of_nil {c : Reg} {s : State} (hin : s.host.inputs = []) : exec (.input c) s = .next s := by
  simp only [exec, execInput, hin]

theorem exec_input_of_byte {c : Reg} {s : State} {b : Byte} {rest : List Config.InputAnswer}
    (hin : s.host.inputs = .byte b :: rest) :
    exec (.input c) s = .next ((s.advance.setInputs rest).setReg c (zextByte b)) := by
  simp only [exec, execInput, hin]

theorem exec_input_of_endOfInput {c : Reg} {s : State} {rest : List Config.InputAnswer}
    (hin : s.host.inputs = .endOfInput :: rest) :
    exec (.input c) s = .next ((s.advance.setInputs rest).setReg c Config.endOfInputWord) := by
  simp only [exec, execInput, hin]

theorem exec_input_of_ioError {c : Reg} {s : State} {rest : List Config.InputAnswer}
    (hin : s.host.inputs = .ioError :: rest) :
    exec (.input c) s = .next (takeFault .ioError (s.setInputs rest)) := by
  simp only [exec, execInput, hin]

/-- A word received into `c` changes that register, the finger and the answers still to come, and nothing else. -/
theorem advance_setInputs_setReg_frame (s : State) (rest : List Config.InputAnswer) (c : Reg) (v : Word) :
    let t := (s.advance.setInputs rest).setReg c v
    KeepsRegsBut c s t ∧ KeepsMemory s t ∧ t.pc = s.pc + 1#32 ∧ t.status = s.status ∧ t.out = s.out ∧
      t.host = { s.host with inputs := rest } :=
  ⟨fun _ hr => setReg_reg_other _ _ _ _ hr, keepsMemory_of_heap_eq rfl, rfl, rfl, rfl, rfl⟩

theorem zextByte_eq_ofNat (b : Byte) : zextByte b = BitVec.ofNat 32 b.toNat :=
  (BitVec.ofNat_toNat 32 b).symm

/-- Settles O51: one of the host's three answers each; the two that deliver a word share its frame. -/
theorem inputDeliversTheHostsAnswer : Obligations.InputDeliversTheHostsAnswer := by
  intro c s rest
  refine ⟨encodeStandard_toNat 11#4 0#3 0#3 c.index, fun b hin => ?_, fun hin => ?_, fun hin => ?_⟩
  · exact ⟨_, exec_input_of_byte hin, (setReg_reg_same _ _ _).trans (zextByte_eq_ofNat b),
      advance_setInputs_setReg_frame s rest c _⟩
  · exact ⟨_, exec_input_of_endOfInput hin, congrArg BitVec.toNat (setReg_reg_same _ _ _),
      advance_setInputs_setReg_frame s rest c _⟩
  · exact ⟨_, exec_input_of_ioError hin, rfl, rfl, rfl⟩

/-- Whatever the host's oldest answer is, an input advances the finger and takes that answer (45_io.md R191). -/
theorem exec_input_takes_answer (c : Reg) {s : State} {a : Config.InputAnswer} {rest : List Config.InputAnswer}
    (hin : s.host.inputs = a :: rest) :
    ∃ t, exec (.input c) s = .next t ∧ t.pc = s.pc + 1#32 ∧ t.host = { s.host with inputs := rest } := by
  cases a with
  | byte b => exact ⟨_, exec_input_of_byte hin, rfl, rfl⟩
  | endOfInput => exact ⟨_, exec_input_of_endOfInput hin, rfl, rfl⟩
  | ioError => exact ⟨_, exec_input_of_ioError hin, rfl, rfl⟩

/-- Settles O52: held, the step answers its own state; an answer queued on an empty queue is the oldest, and taking it leaves
the host's side as it was before the answer. -/
theorem inputHoldsUntilTheHostAnswers : Obligations.InputHoldsUntilTheHostAnswers := by
  intro c s hrun hf hin
  refine ⟨(step_of_fetches hrun hf).trans (exec_input_of_nil hin), fun a => ?_⟩
  have hqueue : (hostAnswersInput a s).host.inputs = [a] := by
    rw [hostAnswersInput, setInputs_inputs, hin, List.nil_append]
  obtain ⟨t, hx, hpc, hhost⟩ := exec_input_takes_answer c hqueue
  have hstep : step (hostAnswersInput a s) = exec (.input c) (hostAnswersInput a s) := step_of_fetches hrun hf
  have hrestored : ({ (hostAnswersInput a s).host with inputs := [] } : HostSide) = s.host := by
    rw [← hin]
    rfl
  exact ⟨t, hstep.trans hx, hpc, hhost.trans hrestored⟩

end Sys2Proof.Machine

/-! Family 60_exceptions: the fetch fault, the fault kinds of an instruction, and what taking a fault writes. -/

namespace Sys2Proof.Machine

/-! ### The fetch fault -/

/-- A fetch fault leaves the finger where it is and writes nothing but the record (60_exceptions.md R208, R212). -/
theorem raiseFault_frame (k : FaultKind) (o : Word) (s : State) :
    let t := raiseFault k o s
    t.pc = s.pc ∧ KeepsRegs s t ∧ KeepsMemory s t ∧ t.out = s.out ∧ t.host = s.host :=
  ⟨rfl, fun _ => rfl, keepsMemory_of_heap_eq rfl, rfl, rfl⟩

/-- Settles O11: at or beyond the end of segment 0 the step is the fetch fault. -/
theorem fetchOutsideSegmentZeroFaults : Obligations.FetchOutsideSegmentZeroFaults :=
  fun s _ hrun hg hge => ⟨_, step_of_length_le_pc hrun hg hge, rfl, raiseFault_frame .fetchOutOfBounds s.pc s⟩

/-! ### The fault of an executing instruction -/

/-- An effect that faults a running machine is one of the instruction's own kinds, and is `takeFault`; only an IoError may
also have used up an answer of the host. -/
theorem Effect.eq_takeFault_of_faulted {i : Instr} {s t : State} {k : FaultKind} {o : Word} (he : Effect i s t)
    (hrun : s.status = .running) (hst : t.status = .faulted k o) :
    k ∈ i.faultKinds ∧ (t = takeFault k s ∨ (k = .ioError ∧ ∃ as, t = takeFault k (s.setInputs as))) := by
  cases he with
  | fault k' hk hne =>
    cases hst
    exact ⟨hk, .inl rfl⟩
  | ioError as hk ha =>
    cases hst
    exact ⟨hk, .inr ⟨rfl, as, rfl⟩⟩
  | halted hi => cases hst
  | _ => cases hrun.symm.trans hst

/-- Settles O24: by the fault of each effect. -/
theorem instructionsRaiseOnlyTheirOwnFaults : Obligations.InstructionsRaiseOnlyTheirOwnFaults := by
  intro i s t k o hrun h hst
  obtain ⟨hk, -⟩ := (exec_effect h).eq_takeFault_of_faulted hrun hst
  exact hk

/-! ### The fault of a step -/

/-- FetchOutOfBounds is the fetch's own: no instruction raises it (60_exceptions.md R208). -/
theorem fetchOutOfBounds_not_mem_faultKinds (i : Instr) : .fetchOutOfBounds ∉ i.faultKinds := by
  cases i <;> simp [Instr.faultKinds]

/-- Everything a step that ends in FAULTED can be: the fetch fault, a fault of decode or execute, or an IoError that used up
an answer of the host. -/
theorem step_faulted_cases {s t : State} {k : FaultKind} {o : Word} (h : step s = .next t)
    (hst : t.status = .faulted k o) :
    (k = .fetchOutOfBounds ∧ t = raiseFault k s.pc s) ∨
    (k ≠ .fetchOutOfBounds ∧ t = takeFault k s) ∨
    (k = .ioError ∧ ∃ as, t = takeFault k (s.setInputs as)) := by
  obtain ⟨hrun, -⟩ := step_next_cases h
  obtain ⟨i, -, he⟩ | ⟨-, rfl | rfl⟩ := step_effect h
  · obtain ⟨hk, ht | hio⟩ := he.eq_takeFault_of_faulted hrun hst
    · have hne : k ≠ .fetchOutOfBounds := by
        rintro rfl
        exact fetchOutOfBounds_not_mem_faultKinds i hk
      exact .inr (.inl ⟨hne, ht⟩)
    · exact .inr (.inr hio)
  · cases hst
    exact .inl ⟨rfl, rfl⟩
  · cases hst
    exact .inr (.inl ⟨by simp, rfl⟩)

/-- Settles O23: by the three ways a step can fault; the offset is this step's by `statusChangesOnlyByHaltOrFault`. -/
theorem takingAFaultWritesOnlyTheRecord : Obligations.TakingAFaultWritesOnlyTheRecord := by
  intro s t k o h hst
  obtain ⟨-, -, hoffset⟩ := statusChangesOnlyByHaltOrFault s t h
  refine ⟨hoffset k o hst, ?_⟩
  obtain ⟨hk, rfl⟩ | ⟨hne, rfl⟩ | ⟨rfl, as, rfl⟩ := step_faulted_cases h hst
  · obtain ⟨hpc, hregs, hmem, hout, hhost⟩ := raiseFault_frame k s.pc s
    exact ⟨hpc.trans (if_pos hk).symm, hout, fun _ => ⟨hregs, hmem, hhost⟩⟩
  · obtain ⟨-, hpc, hregs, hmem, hout, hhost⟩ := takeFault_raises k s
    exact ⟨hpc.trans (if_neg hne).symm, hout, fun _ => ⟨hregs, hmem, hhost⟩⟩
  · exact ⟨rfl, rfl, fun hne => absurd rfl hne⟩

end Sys2Proof.Machine

/-! Family 70_reset_and_hazards: the state a reset establishes, whatever the state before it. -/

namespace Sys2Proof.Machine

/-! ### Reset -/

/-- Every register is 0 after a reset (70_reset_and_hazards.md R240). -/
@[simp] theorem resetWith_reg (image : List Word) (host : HostSide) (r : Reg) :
    (State.resetWith image host).reg r = 0#32 := by
  cases r <;> rfl

/-- Segment 0 holds the image after a reset. -/
theorem resetWith_segment_zero (image : List Word) (host : HostSide) :
    (State.resetWith image host).heap.segment? 0#32 = some (.ofWords image) := rfl

/-- An offset inside the image's segment reads the word of the image there. -/
theorem memRead_ofWords_of_some {h : Heap} {id i w : Word} {image : List Word} (hlen : image.length < 2 ^ 32)
    (hid : h.segment? id = some (.ofWords image)) (hw : image[i.toNat]? = some w) : memRead h id i = .ok w := by
  have hi : i.toNat < image.length := (List.getElem?_eq_some_iff.mp hw).1
  rw [memRead_live hid, Segment.ofWords_length image hlen, if_pos hi, Segment.ofWords_read, hw, Option.getD_some]

/-- An offset at or beyond the image's length is out of the segment's bounds. -/
theorem memRead_ofWords_of_none {h : Heap} {id i : Word} {image : List Word} (hlen : image.length < 2 ^ 32)
    (hid : h.segment? id = some (.ofWords image)) (hw : image[i.toNat]? = none) :
    memRead h id i = .error .segmentIndexOutOfBounds := by
  have hi : image.length ≤ i.toNat := List.getElem?_eq_none_iff.mp hw
  rw [memRead_live hid, Segment.ofWords_length image hlen, if_neg (Nat.not_lt.mpr hi)]

/-- The first step after a reset with the empty image is the fetch fault at offset 0 (70_reset_and_hazards.md R241). -/
theorem step_resetWith_nil (host : HostSide) :
    step (State.resetWith [] host) = .next (raiseFault .fetchOutOfBounds 0#32 (State.resetWith [] host)) :=
  step_of_length_le_pc rfl (resetWith_segment_zero [] host) (Nat.le_refl 0)

/-- Settles O25: the reads of segment 0 are those of the image's segment, word by word; the empty image has none to fetch. -/
theorem resetEstablishesTheInitialState : Obligations.ResetEstablishesTheInitialState := by
  refine ⟨fun image u hlen => ?_, fun u => ⟨_, step_resetWith_nil u.host, rfl⟩⟩
  have hzero : (hostReset image u).heap.segment? 0#32 = some (.ofWords image) := resetWith_segment_zero image u.host
  refine ⟨resetWith_reg image u.host, rfl, rfl, rfl, rfl, rfl, fun i => ?_⟩
  split
  next w hw => exact memRead_ofWords_of_some hlen hzero hw
  next hw => exact memRead_ofWords_of_none hlen hzero hw

end Sys2Proof.Machine
